-- ==== Sys2Proof/Word.lean ====
section
/-! DEFINITION. The word types of the framing core: bytes, command words, response words, the retry delay (00_scope.md R8, R12; 30_encoding.md R80, R82). -/

namespace Sys2Proof

/-- A byte: an unsigned integer in `0..255`; bit 0 is the least significant (R12). Also the width of every counter, cursor and index (R8). -/
abbrev Byte := BitVec 8

/-- A command word `cmd[15:0]` of the command port (R80). -/
abbrev CmdWord := BitVec 16

/-- A response word `resp[9:0]` (R82). -/
abbrev RespWord := BitVec 10

/-- The retry delay `req_delay`, 16 bits unsigned (R8, R45). -/
abbrev Delay := BitVec 16

end Sys2Proof
end

