-- ==== Sys2Proof/Syntax.lean ====
section
/-! DEFINITION. The commands of the framing core: one constructor for each row of spec/opcode_table.json (30_encoding.md R85). A format B command carries its operand byte `imm8`, a format N command carries nothing (R81). -/

namespace Sys2Proof

/-- The 27 commands (R85), in the table's order. -/
inductive Instr where
  /-- `CRC_RESET` (R103) -/
  | crcReset
  /-- `CRC_CALC imm8` (R104) -/
  | crcCalc (imm8 : Byte)
  /-- `CRC_UPDATE imm8` (R105) -/
  | crcUpdate (imm8 : Byte)
  /-- `CRC_READ` (R106) -/
  | crcRead
  /-- `ENC_RESET` (R121) -/
  | encReset
  /-- `ENC_WRITE imm8` (R122) -/
  | encWrite (imm8 : Byte)
  /-- `ENC_END` (R123) -/
  | encEnd
  /-- `ENC_AVAIL` (R124) -/
  | encAvail
  /-- `ENC_READ` (R125) -/
  | encRead
  /-- `ENC_PKTLEN` (R126) -/
  | encPktlen
  /-- `DEC_RESET` (R154) -/
  | decReset
  /-- `DEC_WRITE imm8` (R156) -/
  | decWrite (imm8 : Byte)
  /-- `DEC_AVAIL` (R157) -/
  | decAvail
  /-- `DEC_READ` (R158) -/
  | decRead
  /-- `DEC_ISOPEN` (R159) -/
  | decIsopen
  /-- `DEC_HASERR` (R160) -/
  | decHaserr
  /-- `DEC_LASTERR` (R161) -/
  | decLasterr
  /-- `DEC_TOTLEN` (R162) -/
  | decTotlen
  /-- `REQ_SET_ADDR imm8` (R191) -/
  | reqSetAddr (imm8 : Byte)
  /-- `REQ_SET_RESPLEN imm8` (R192) -/
  | reqSetResplen (imm8 : Byte)
  /-- `REQ_SET_DELAY_LO imm8` (R193) -/
  | reqSetDelayLo (imm8 : Byte)
  /-- `REQ_SET_DELAY_HI imm8` (R194) -/
  | reqSetDelayHi (imm8 : Byte)
  /-- `REQ_SET_ATTEMPTS imm8` (R195) -/
  | reqSetAttempts (imm8 : Byte)
  /-- `REQ_START` (R196) -/
  | reqStart
  /-- `REQ_STATUS` (R204) -/
  | reqStatus
  /-- `REQ_AVAIL` (R205) -/
  | reqAvail
  /-- `REQ_READ` (R206) -/
  | reqRead
  deriving DecidableEq, Repr

/-- The four units; the high nibble of the opcode names one (R85). -/
inductive CmdUnit where
  | crc | enc | dec | req
  deriving DecidableEq, Repr

/-- The two command formats (R81). -/
inductive Format where
  /-- no operand: `imm8` must be `0x00` -/
  | formatN
  /-- byte operand: any `imm8` -/
  | formatB
  deriving DecidableEq, Repr

/-- Why a command word is illegal (R86). -/
inductive IllegalReason where
  /-- R86 (a): `opc` is not one of the 27 values of R85 -/
  | unknownOpcode
  /-- R86 (b): `opc` is a format N opcode and `imm8` is not `0x00` -/
  | operandNotZero
  deriving DecidableEq, Repr

/-- What the decoder makes of a command word: a command, or an illegal word and the reason. -/
inductive Decoded where
  | instr (i : Instr)
  | illegal (why : IllegalReason)
  deriving DecidableEq, Repr

/-- The unit a command belongs to. -/
def Instr.unit : Instr → CmdUnit
  | .crcReset | .crcCalc _ | .crcUpdate _ | .crcRead => .crc
  | .encReset | .encWrite _ | .encEnd | .encAvail | .encRead | .encPktlen => .enc
  | .decReset | .decWrite _ | .decAvail | .decRead | .decIsopen | .decHaserr | .decLasterr | .decTotlen => .dec
  | .reqSetAddr _ | .reqSetResplen _ | .reqSetDelayLo _ | .reqSetDelayHi _ | .reqSetAttempts _ => .req
  | .reqStart | .reqStatus | .reqAvail | .reqRead => .req

/-- The format of a command (R81's list of format B commands). -/
def Instr.format : Instr → Format
  | .crcCalc _ | .crcUpdate _ | .encWrite _ | .decWrite _ => .formatB
  | .reqSetAddr _ | .reqSetResplen _ | .reqSetDelayLo _ | .reqSetDelayHi _ | .reqSetAttempts _ => .formatB
  | .crcReset | .crcRead | .encReset | .encEnd | .encAvail | .encRead | .encPktlen => .formatN
  | .decReset | .decAvail | .decRead | .decIsopen | .decHaserr | .decLasterr | .decTotlen => .formatN
  | .reqStart | .reqStatus | .reqAvail | .reqRead => .formatN

/-- The operand byte of a command, `0x00` for format N (R81, R89). -/
def Instr.operand : Instr → Byte
  | .crcCalc b | .crcUpdate b | .encWrite b | .decWrite b => b
  | .reqSetAddr b | .reqSetResplen b | .reqSetDelayLo b | .reqSetDelayHi b | .reqSetAttempts b => b
  | .crcReset | .crcRead | .encReset | .encEnd | .encAvail | .encRead | .encPktlen => 0#8
  | .decReset | .decAvail | .decRead | .decIsopen | .decHaserr | .decLasterr | .decTotlen => 0#8
  | .reqStart | .reqStatus | .reqAvail | .reqRead => 0#8

end Sys2Proof
end

