-- ==== Sys2Proof/WellFormed.lean ====
section
/-! DEFINITION. Well-formedness. A term of `Instr` carries at most one operand, a byte, and every byte is a legal operand (30_encoding.md R81, R89), so every term of `Instr` is well formed. What can be ill formed on this hardware is the command WORD: `wordLegal` is R86's check, written from R85's nibbles and R81's list and not from the decoder. -/

namespace Sys2Proof

/-- A format N command has the operand field `0x00`; a format B command may have any (R81). It holds of every term. -/
def Instr.wellFormed (i : Instr) : Bool :=
  match i.format with
  | .formatN => i.operand == 0#8
  | .formatB => true

/-- How many opcodes the unit named by the high nibble has (R85): CRC 4, ENC 6, DEC 8, REQ 9. -/
def opcodesOfUnit : Nat → Nat
  | 1 => 4
  | 2 => 6
  | 3 => 8
  | 4 => 9
  | _ => 0

/-- R86 (a): the opcode is one of the 27 of R85. -/
def opcodeKnown (opc : Byte) : Bool :=
  decide (opc.toNat % 16 < opcodesOfUnit (opc.toNat / 16))

/-- R81's format B opcodes: `CRC_CALC`, `CRC_UPDATE`, `ENC_WRITE`, `DEC_WRITE` and the five `REQ_SET_*`. -/
def opcodeTakesByte (opc : Byte) : Bool :=
  [0x11, 0x12, 0x21, 0x31, 0x40, 0x41, 0x42, 0x43, 0x44].contains opc.toNat

/-- R86 (b): a word whose opcode takes no operand has `imm8 = 0x00`. -/
def operandAllowed (opc imm8 : Byte) : Bool :=
  opcodeTakesByte opc || imm8 == 0#8

/-- A legal command word: neither R86 (a) nor R86 (b) applies. -/
def wordLegal (w : CmdWord) : Bool :=
  opcodeKnown (w.extractLsb' 8 8) && operandAllowed (w.extractLsb' 8 8) (w.extractLsb' 0 8)

end Sys2Proof
end

