-- ==== Sys2Proof/Decode.lean ====
section
/-! DEFINITION. The decoder and the encoder of command words (30_encoding.md R80, R81, R85, R86). -/

namespace Sys2Proof

/-- `cmd[15:8]`, the opcode field (R80). -/
def opcField (w : CmdWord) : Byte := w.extractLsb' 8 8

/-- `cmd[7:0]`, the operand field (R80). -/
def immField (w : CmdWord) : Byte := w.extractLsb' 0 8

/-- A format N word is its command when `imm8 = 0x00` and illegal otherwise (R81, R86 (b)). -/
def ofFormatN (i : Instr) (imm8 : Byte) : Decoded :=
  if imm8 = 0#8 then .instr i else .illegal .operandNotZero

/-- The decoder: the opcode map of R85, with R86 for every other word. -/
def decode (w : CmdWord) : Decoded :=
  let imm8 := immField w
  match (opcField w).toNat with
  | 0x10 => ofFormatN .crcReset imm8
  | 0x11 => .instr (.crcCalc imm8)
  | 0x12 => .instr (.crcUpdate imm8)
  | 0x13 => ofFormatN .crcRead imm8
  | 0x20 => ofFormatN .encReset imm8
  | 0x21 => .instr (.encWrite imm8)
  | 0x22 => ofFormatN .encEnd imm8
  | 0x23 => ofFormatN .encAvail imm8
  | 0x24 => ofFormatN .encRead imm8
  | 0x25 => ofFormatN .encPktlen imm8
  | 0x30 => ofFormatN .decReset imm8
  | 0x31 => .instr (.decWrite imm8)
  | 0x32 => ofFormatN .decAvail imm8
  | 0x33 => ofFormatN .decRead imm8
  | 0x34 => ofFormatN .decIsopen imm8
  | 0x35 => ofFormatN .decHaserr imm8
  | 0x36 => ofFormatN .decLasterr imm8
  | 0x37 => ofFormatN .decTotlen imm8
  | 0x40 => .instr (.reqSetAddr imm8)
  | 0x41 => .instr (.reqSetResplen imm8)
  | 0x42 => .instr (.reqSetDelayLo imm8)
  | 0x43 => .instr (.reqSetDelayHi imm8)
  | 0x44 => .instr (.reqSetAttempts imm8)
  | 0x45 => ofFormatN .reqStart imm8
  | 0x46 => ofFormatN .reqStatus imm8
  | 0x47 => ofFormatN .reqAvail imm8
  | 0x48 => ofFormatN .reqRead imm8
  | _ => .illegal .unknownOpcode

/-- The opcode of a command (R85). -/
def opcodeOf : Instr → Byte
  | .crcReset => 0x10#8
  | .crcCalc _ => 0x11#8
  | .crcUpdate _ => 0x12#8
  | .crcRead => 0x13#8
  | .encReset => 0x20#8
  | .encWrite _ => 0x21#8
  | .encEnd => 0x22#8
  | .encAvail => 0x23#8
  | .encRead => 0x24#8
  | .encPktlen => 0x25#8
  | .decReset => 0x30#8
  | .decWrite _ => 0x31#8
  | .decAvail => 0x32#8
  | .decRead => 0x33#8
  | .decIsopen => 0x34#8
  | .decHaserr => 0x35#8
  | .decLasterr => 0x36#8
  | .decTotlen => 0x37#8
  | .reqSetAddr _ => 0x40#8
  | .reqSetResplen _ => 0x41#8
  | .reqSetDelayLo _ => 0x42#8
  | .reqSetDelayHi _ => 0x43#8
  | .reqSetAttempts _ => 0x44#8
  | .reqStart => 0x45#8
  | .reqStatus => 0x46#8
  | .reqAvail => 0x47#8
  | .reqRead => 0x48#8

/-- The encoder: `(opc << 8) | imm8` (R80, R94). -/
def encode (i : Instr) : CmdWord := opcodeOf i ++ i.operand

/-- The command in the low `nbits` bits of `w`; a command is always 16 bits (R88), so a longer pattern is none, and in a
shorter one the missing bits are 0. -/
def decodeTableWord (nbits w : Nat) : Option Instr :=
  if nbits ≤ 16 then
    match decode (BitVec.ofNat 16 (w % 2 ^ nbits)) with
    | .instr i => some i
    | .illegal _ => none
  else none

end Sys2Proof
end

