-- ==== Sys2Proof/Machine/Checksum.lean ====
section
/-! DEFINITION. The Checksum Engine's algorithm (41_crc.md R100 to R102): the pure functions every unit computes its checksum with. -/

namespace Sys2Proof.Machine

/-- One bit of R101's loop: XOR the data bit with the accumulator's low bit, shift the accumulator right by one, and XOR
it with `0x8C` if the first XOR was 1. -/
def crc8Bit (acc : Byte) (dataBit : Bool) : Byte :=
  if (acc.getLsbD 0 ^^ dataBit) = true then (acc >>> 1) ^^^ 0x8C#8 else acc >>> 1

/-- `crc8_step(a, b)`: the accumulator after input byte `b`, bit 0 of `b` first (R101). -/
def crc8Step (a b : Byte) : Byte :=
  [0, 1, 2, 3, 4, 5, 6, 7].foldl (fun acc i => crc8Bit acc (b.getLsbD i)) a

/-- `crc8_seq(a, xs)`: the accumulator after the byte sequence `xs` (R102). -/
def crc8Seq (a : Byte) : List Byte → Byte
  | [] => a
  | b :: rest => crc8Seq (crc8Step a b) rest

end Sys2Proof.Machine
end

