-- ==== Sys2Proof/Config.lean ====
section
/-! DEFINITION. The constants of the framing core that the spec fixes (00_scope.md R7), and the range of the one parameter it leaves open, the capacity `CAP` (R6). -/

namespace Sys2Proof.Config

/-- The start sentinel of a frame, `START = 0x02` (R7, decision D6). -/
def startByte : Byte := 0x02#8

/-- The end sentinel of a frame, `END_ = 0x04` (R7, decision D6). -/
def endByte : Byte := 0x04#8

/-- The smallest capacity: the shortest frame is 4 bytes (R6, R92). -/
def minCap : Nat := 4

/-- How many payload bytes fit a frame of capacity `CAP`: `CAP - 4`, the form in which the model holds the parameter `CAP`,
so that `4 <= CAP <= 255` (R6) holds by its type. -/
abbrev MaxPayload := Fin 252

/-- The frame capacity `CAP` in bytes (R6). -/
def capOf (p : MaxPayload) : Nat := p.val + minCap

/-- PRESUMED (log 3): the example capacity `CAP = 128` of R6 and G1, the default instance; no statement rests on it. -/
def defaultMaxPayload : MaxPayload := 124

end Sys2Proof.Config
end

