-- ==== Sys2Proof/Machine/State.lean ====
section
/-! DEFINITION. The state of the framing core as plain data (10_state.md R20 to R57), the reasons a step can stop, and the state after reset. The fields are the spec's elements under the spec's names, grouped by unit (R20), with what lies at the block's boundary beside them (INVENTORY.md, State). -/

namespace Sys2Proof.Machine

/-- The contents of one buffer space (R60): (index, byte) pairs, indices strictly rising. An index that is not listed has NO
value: R57 says of an unspecified byte that a read of it has no value. -/
abbrev Memory := List Host.Cell

/-- The decoder error codes of `D.err` (R39, D8). The 2-bit code 3 "is never produced" and has no constructor. -/
inductive DecErr where
  /-- 0, none -/
  | noError
  /-- 1, invalid-length -/
  | invalidLength
  /-- 2, invalid-checksum -/
  | invalidChecksum
  deriving DecidableEq, Repr

/-- The request status codes of `req_status` (R47, D9). The 3-bit codes 5 to 7 "are never produced" and have no constructor. -/
inductive ReqStatus where
  /-- 0, none -/
  | noStatus
  /-- 1, packet-read -/
  | packetRead
  /-- 2, peer-not-found -/
  | peerNotFound
  /-- 3, packet-error -/
  | packetError
  /-- 4, attempts-exhausted -/
  | attemptsExhausted
  deriving DecidableEq, Repr

/-- The states of the requester FSM, `req_state` (R48, R190). -/
inductive ReqState where
  /-- `RQ_IDLE` -/
  | idle
  /-- `RQ_CHECK` -/
  | check
  /-- `RQ_TRIG` -/
  | trig
  /-- `RQ_WAIT` -/
  | wait
  /-- `RQ_POLL` -/
  | poll
  /-- `RQ_EVAL` -/
  | eval
  deriving DecidableEq, Repr

/-- The events REQ emits to ENV (R190). -/
inductive Event where
  /-- `TxBegin(a)` -/
  | txBegin (addr : Byte)
  /-- `TxWrite(b)` -/
  | txWrite (b : Byte)
  /-- `TxEnd` -/
  | txEnd
  /-- `Wait(t)`, `t` the exact product of R199 in the unit of `req_delay` -/
  | wait (t : Nat)
  /-- `Poll(a, n)` -/
  | poll (addr : Byte) (n : Byte)
  deriving DecidableEq, Repr

/-- The ENC unit (R25 to R28). -/
structure Encoder where
  /-- `enc_buf[0..CAP-1]` (R25) -/
  buf : Memory
  /-- `enc_cur` (R26) -/
  cur : Byte
  /-- `enc_total` (R27) -/
  total : Byte
  /-- `enc_open` (R28) -/
  isOpen : Bool
  deriving DecidableEq, Repr

/-- A decoder record `D` (R35 to R39). -/
structure Decoder where
  /-- `D.buf[0..CAP-1]` (R36) -/
  buf : Memory
  /-- `D.widx` (R37) -/
  widx : Byte
  /-- `D.ridx` (R37) -/
  ridx : Byte
  /-- `D.total` (R38) -/
  total : Byte
  /-- `D.explen` (R38) -/
  explen : Byte
  /-- `D.paylen` (R38) -/
  paylen : Byte
  /-- `D.open` (R39) -/
  isOpen : Bool
  /-- `D.err` (R39) -/
  err : DecErr
  deriving DecidableEq, Repr

/-- The REQ unit (R45 to R50). -/
structure Requester where
  /-- `req_addr` (R45) -/
  addr : Byte
  /-- `req_resplen` (R45) -/
  resplen : Byte
  /-- `req_delay` (R45) -/
  delay : Delay
  /-- `req_maxatt` (R45) -/
  maxatt : Byte
  /-- `req_attempt` (R46) -/
  attempt : Byte
  /-- `req_needtrig` (R46) -/
  needtrig : Bool
  /-- `req_lasterr` (R46) -/
  lasterr : Bool
  /-- `req_status` (R47) -/
  status : ReqStatus
  /-- `req_state` (R48) -/
  state : ReqState
  /-- `req_rxbuf[0..CAP-5]` (R49) -/
  rxbuf : Memory
  /-- `req_rxlen` (R49) -/
  rxlen : Byte
  /-- `req_rxcur` (R49) -/
  rxcur : Byte
  /-- `rdec`, the private decoder record (R35, R50) -/
  rdec : Decoder
  /-- DESIGN CHOICE (log 15), the model's own: how many of the six events of the present RQ_TRIG have been emitted, so that a
  hardware reset can fall between `TxBegin` and `TxEnd` (R280). -/
  trigSent : Fin 6
  /-- DESIGN CHOICE (log 5), the model's own: the event of the present RQ_WAIT or RQ_POLL has been emitted and ENV has not
  answered it yet. -/
  awaiting : Bool
  deriving DecidableEq, Repr

/-- The whole machine: the four units (R20), the command port and reset input HOST drives (R9, R80, R82, R280), and ENV's side
of the events (R190, R208). -/
structure State where
  /-- the parameter `CAP`, held as `CAP - 4` (R6; log 3); no step changes it -/
  maxPayload : Config.MaxPayload
  /-- `crc_acc` (R22) -/
  crcAcc : Byte
  /-- the ENC unit -/
  enc : Encoder
  /-- `dec`, the command port's decoder record (R35) -/
  dec : Decoder
  /-- the REQ unit -/
  req : Requester
  /-- the reset input (R280; log 11) -/
  resetPin : Bool
  /-- the command words HOST will still issue, the next first (R9, R10; log 1) -/
  hostCmds : List CmdWord
  /-- the response word of the last completed command, none while none is available (R82; log 10) -/
  resp : Option RespWord
  /-- how many `Wait` events ENV is ready to answer with `done` (R190, R208; log 4) -/
  envDone : Nat
  /-- the answers ENV is ready to give to `Poll` events, the next first (R190, R208; log 4) -/
  envPolls : List (List Byte)
  /-- the output event trace of the present or most recent request, oldest first (R190, R196; log 9) -/
  trace : List Event
  deriving DecidableEq, Repr

/-- The frame capacity `CAP` (R6). -/
def State.cap (s : State) : Nat := Config.capOf s.maxPayload

/-- Why a step stops with a fault. Both are the model's own and no run from reset reaches either: the block itself raises no
exception (R250) and has no bounds fault (R62). -/
inductive Fault where
  /-- A buffer byte that nothing has written was read: R57 gives it no value. Raised by a load of a buffer (`ENC_READ`, `ENC_END`,
  `DEC_READ`, `DEC_WRITE` at a terminal byte, `REQ_READ`, the micro-steps POLL and EVAL). Safe: the model stops where the
  hardware would go on with some byte (log 6). -/
  | byteNeverWritten
  /-- A buffer index is at or beyond the buffer's size (R62). Raised by a load or a store of a buffer (those named above, and
  `ENC_WRITE`). Safe: the spec says such an access cannot occur (log 7). -/
  | indexOutsideBuffer
  deriving DecidableEq, Repr

/-- Why a step refuses an instruction. -/
inductive Refusal where
  /-- No meaning for the instruction yet; raised by an arm of `exec` for an instruction not modelled, and there is none.
  Safe: nothing runs. -/
  | notModelled (mnemonic : String)
  deriving DecidableEq, Repr

/-- The decoder reset state with nothing in the buffer: after hardware reset every byte of `D.buf` is unspecified (R40, R57). -/
def Decoder.reset : Decoder :=
  { buf := [], widx := 0#8, ridx := 0#8, total := 0#8, explen := 0#8, paylen := 0#8, isOpen := false, err := .noError }

/-- The encoder after hardware reset: `enc_buf[0] = START`, every other byte unspecified (R29, R57). -/
def Encoder.reset : Encoder :=
  { buf := [(0, Config.startByte)], cur := 2#8, total := 2#8, isOpen := true }

/-- The requester after hardware reset (R57). -/
def Requester.reset : Requester :=
  { addr := 0#8, resplen := 0#8, delay := 0#16, maxatt := 0#8
    attempt := 0#8, needtrig := false, lasterr := false, status := .noStatus, state := .idle
    rxbuf := [], rxlen := 0#8, rxcur := 0#8, rdec := Decoder.reset, trigSent := 0, awaiting := false }

/-- The machine right after hardware reset with capacity `p.val + 4` (R57, R280): every element at its reset value, no command
issued and no answer given yet (logs 1, 4, 9, 10, 11). -/
def State.resetWith (p : Config.MaxPayload) : State :=
  { maxPayload := p, crcAcc := 0#8, enc := Encoder.reset, dec := Decoder.reset, req := Requester.reset
    resetPin := false, hostCmds := [], resp := none, envDone := 0, envPolls := [], trace := [] }

/-- The machine right after hardware reset (R57), at the example capacity 128 (log 3). -/
def State.reset : State := State.resetWith Config.defaultMaxPayload

end Sys2Proof.Machine
end

