-- ==== Sys2Proof/Machine/Ops.lean ====
section
/-! DEFINITION. The named operations over the buffers, the command port, the event trace and the reset input. The block takes no exceptions (60_exceptions.md R250); what stands in their place is here too: the illegal-word response (R86, R254) and the recording of a decoder error (R257). -/

namespace Sys2Proof.Machine

/-! ### Buffer spaces (20_memory.md R60 to R62) -/

/-- The byte at index `i`, none where nothing has been written (R57). The first entry for `i` counts. -/
def Memory.read : Memory → Nat → Option Byte
  | [], _ => none
  | (a, v) :: rest, i => if a = i then some v else Memory.read rest i

/-- Store byte `v` at index `i`, keeping the indices strictly rising. -/
def Memory.write : Memory → Nat → Byte → Memory
  | [], i, v => [(i, v)]
  | (a, w) :: rest, i, v =>
    if i < a then (i, v) :: (a, w) :: rest
    else if i = a then (i, v) :: rest
    else (a, w) :: Memory.write rest i v

/-- The canonical form: indices strictly rising (so that equal contents are equal data). An unlisted index has no value, so no
entry can equal what an unlisted index reads as. -/
def Memory.wf : Memory → Bool
  | [] => true
  | (a, _) :: rest => rest.all (fun c => decide (a < c.1)) && Memory.wf rest

/-- Every listed index is inside a buffer of `size` bytes (R60). -/
def Memory.within (size : Nat) (m : Memory) : Bool := m.all (fun c => decide (c.1 < size))

/-- `MemRead(S, i, 1)` in a buffer of `size` bytes (R14, R60). -/
def load (size : Nat) (m : Memory) (i : Nat) : Except Fault Byte :=
  if i < size then
    match m.read i with
    | some v => .ok v
    | none => .error .byteNeverWritten
  else .error .indexOutsideBuffer

/-- `MemWrite(S, i, 1, v)` in a buffer of `size` bytes (R14, R60). -/
def store (size : Nat) (m : Memory) (i : Nat) (v : Byte) : Except Fault Memory :=
  if i < size then .ok (m.write i v) else .error .indexOutsideBuffer

/-- The `n` bytes from index `lo` up, `S[lo .. lo+n)` (R12). -/
def loadRange (size : Nat) (m : Memory) (lo : Nat) : Nat → Except Fault (List Byte)
  | 0 => .ok []
  | n + 1 =>
    match load size m lo with
    | .error e => .error e
    | .ok b =>
      match loadRange size m (lo + 1) n with
      | .error e => .error e
      | .ok bs => .ok (b :: bs)

/-- Store the bytes of a list at rising indices from `lo`: `for i in 0 .. |bs|-1: S[lo + i] <- bs[i]`. -/
def storeList (size : Nat) (m : Memory) (lo : Nat) : List Byte → Except Fault Memory
  | [] => .ok m
  | b :: bs =>
    match store size m lo b with
    | .error e => .error e
    | .ok m' => storeList size m' (lo + 1) bs

/-- An operation's result as the outcome of a step. -/
def outcomeOf : Except Fault State → Host.Outcome State Fault Refusal
  | .ok s => .next s
  | .error e => .fault e

/-- The bytes of a numeral that a rule stores into an 8-bit register (R13). -/
def toByte (n : Nat) : Byte := BitVec.ofNat 8 n

/-! ### The command port (30_encoding.md R80 to R86) -/

/-- The response word: `ill` in bit 9, `f` in bit 8, `d` in bits 7:0 (R82). -/
def respWord (ill f : Bool) (d : Byte) : RespWord := BitVec.ofBool ill ++ BitVec.ofBool f ++ d

/-- `respond(f, d)` (R14, R82). -/
def State.respond (s : State) (f : Bool) (d : Byte) : State := { s with resp := some (respWord false f d) }

/-- `respond_illegal` (R14, R86): the one thing an illegal command word does (R254). -/
def State.respondIllegal (s : State) : State := { s with resp := some (respWord true false 0#8) }

/-- Take the next command word from HOST: the port's analogue of a fetch (R9, R70). None when HOST issues nothing. -/
def State.fetch (s : State) : Option (CmdWord × State) :=
  match s.hostCmds with
  | [] => none
  | w :: rest => some (w, { s with hostCmds := rest })

/-- HOST puts the word `w` on a ready command port, ahead of the words it will issue after it. -/
def State.present (s : State) (w : CmdWord) : State :=
  { s with resetPin := false, req := { s.req with state := .idle }, hostCmds := w :: s.hostCmds }

/-! ### Events (44_requester.md R190) -/

/-- `emit E` for each event of a list, in order (R14, R190). -/
def State.emit (s : State) (es : List Event) : State := { s with trace := s.trace ++ es }

/-! ### Decoder records: reset and the recording of an error (R151, R257) -/

/-- `dec_reset(D)`: every field of the record but the buffer (R151, R40). -/
def Decoder.clear (D : Decoder) : Decoder :=
  { D with isOpen := false, err := .noError, total := 0#8, explen := 0#8, paylen := 0#8, widx := 0#8, ridx := 0#8 }

/-- Record a decoder error and close the record; nothing is saved elsewhere and control goes nowhere (R251, R257). -/
def Decoder.recordError (D : Decoder) (e : DecErr) : Decoder := { D with isOpen := false, err := e }

/-! ### Hardware reset (70_reset_and_hazards.md R280) -/

/-- Hardware reset: every element at R57's value, any pending response discarded, the port ready. Events already emitted are not
recalled; HOST's and ENV's inputs and the capacity are not the block's to reset (log 11). -/
def State.hardReset (s : State) : State :=
  { State.resetWith s.maxPayload with hostCmds := s.hostCmds, envDone := s.envDone, envPolls := s.envPolls, trace := s.trace }

end Sys2Proof.Machine
end

