-- ==== Sys2Proof/Machine/CrcUnit.lean ====
section
/-! DEFINITION. The CRC unit's commands (41_crc.md R103 to R106). -/

namespace Sys2Proof.Machine

/-- `CRC_RESET` (R103). -/
def execCrcReset (s : State) : Host.Outcome State Fault Refusal :=
  .next ({ s with crcAcc := 0x00#8 }.respond true 0x00#8)

/-- `CRC_CALC imm8` (R104). -/
def execCrcCalc (imm8 : Byte) (s : State) : Host.Outcome State Fault Refusal :=
  let acc := crc8Step 0x00#8 imm8
  .next ({ s with crcAcc := acc }.respond true acc)

/-- `CRC_UPDATE imm8` (R105). -/
def execCrcUpdate (imm8 : Byte) (s : State) : Host.Outcome State Fault Refusal :=
  let acc := crc8Step s.crcAcc imm8
  .next ({ s with crcAcc := acc }.respond true acc)

/-- `CRC_READ` (R106). -/
def execCrcRead (s : State) : Host.Outcome State Fault Refusal :=
  .next (s.respond true s.crcAcc)

end Sys2Proof.Machine
end

