-- ==== Sys2Proof/Machine/Flags.lean ====
section
/-! DEFINITION. Flags and conditions: the codes of the two enumerations (30_encoding.md R90), the decoder's conceptual state (43_decoder.md R152, R153), and the flag conditions of the encoder, the decoder and the read cursors. -/

namespace Sys2Proof.Machine

/-- `zext_8(D.err)` (R90, R161). -/
def DecErr.code : DecErr → Byte
  | .noError => 0x00#8
  | .invalidLength => 0x01#8
  | .invalidChecksum => 0x02#8

/-- `zext_8(req_status)` (R90, R204). -/
def ReqStatus.code : ReqStatus → Byte
  | .noStatus => 0x00#8
  | .packetRead => 0x01#8
  | .peerNotFound => 0x02#8
  | .packetError => 0x03#8
  | .attemptsExhausted => 0x04#8

/-- A boolean carried in `d`: `0x00` false, `0x01` true (R90). -/
def boolByte (b : Bool) : Byte := if b = true then 0x01#8 else 0x00#8

/-- The decoder's conceptual states (R150, R152); `unreachable` is R152's "no other combination is reachable". -/
inductive Phase where
  | idle | collectingLength | collectingPayload | closedOk | closedErr | unreachable
  deriving DecidableEq, Repr

/-- `phase(D)` (R152), row by row. -/
def Decoder.phase (D : Decoder) : Phase :=
  match D.err, D.isOpen with
  | .noError, false => if D.total.toNat = 0 then .idle else if 4 ≤ D.total.toNat then .closedOk else .unreachable
  | .noError, true => if D.total.toNat = 1 then .collectingLength else if 2 ≤ D.total.toNat then .collectingPayload else .unreachable
  | _, false => if 1 ≤ D.total.toNat then .closedErr else .unreachable
  | _, true => .unreachable

/-- `D.err != 0`. -/
def Decoder.hasErr (D : Decoder) : Bool := decide (D.err ≠ .noError)

/-- `dec_done_ok(D)`: `D.open = 0 and D.err = 0 and D.total > 0` (R153). -/
def Decoder.doneOk (D : Decoder) : Bool := !D.isOpen && !D.hasErr && decide (0 < D.total.toNat)

/-- R122's acceptance test: `enc_open = 1 and enc_total + 1 <= CAP - 2`. -/
def Encoder.accepts (cap : Nat) (e : Encoder) : Bool := e.isOpen && decide (e.total.toNat + 1 ≤ cap - 2)

/-- R125's test: `enc_open = 0 and enc_cur < enc_total`. -/
def Encoder.readable (e : Encoder) : Bool := !e.isOpen && decide (e.cur.toNat < e.total.toNat)

/-- R158's test: `dec_done_ok(dec) and dec.ridx < dec.paylen`. -/
def Decoder.readable (D : Decoder) : Bool := D.doneOk && decide (D.ridx.toNat < D.paylen.toNat)

/-- R206's test: `req_rxcur < req_rxlen`. -/
def Requester.readable (r : Requester) : Bool := decide (r.rxcur.toNat < r.rxlen.toNat)

/-- R155's test for a byte before the terminal position, `D.total < D.explen - 1`, over the integers (R13, D10). -/
def Decoder.beforeTerminal (D : Decoder) : Bool := decide ((D.total.toNat : Int) < (D.explen.toNat : Int) - 1)

end Sys2Proof.Machine
end

