-- ==== Sys2Proof/Machine/Operands.lean ====
section
/-! DEFINITION. Operands: the one addressing mode, cursor-indexed with post-increment (20_memory.md R61), and the assembled operand `req_delay` (30_encoding.md R89). The operand byte `imm8` is used as it stands (R89) and needs no operation. -/

namespace Sys2Proof.Machine

/-- The cursor after an access, `c <- c + 1` (R61), stored into its 8-bit register (R13; log 8). -/
def bump (c : Byte) : Byte := toByte (c.toNat + 1)

/-- `v <- S[c]; c <- c + 1` (R61): the byte and the new cursor. -/
def loadPostInc (size : Nat) (m : Memory) (c : Byte) : Except Fault (Byte × Byte) :=
  match load size m c.toNat with
  | .error e => .error e
  | .ok v => .ok (v, bump c)

/-- `S[c] <- b; c <- c + 1` (R61): the buffer and the new cursor. -/
def storePostInc (size : Nat) (m : Memory) (c : Byte) (b : Byte) : Except Fault (Memory × Byte) :=
  match store size m c.toNat b with
  | .error e => .error e
  | .ok m' => .ok (m', bump c)

/-- `{req_delay[15:8], imm8}` (R89, R193). -/
def withLowByte (d : Delay) (lo : Byte) : Delay := d.extractLsb' 8 8 ++ lo

/-- `{imm8, req_delay[7:0]}` (R89, R194). -/
def withHighByte (d : Delay) (hi : Byte) : Delay := hi ++ d.extractLsb' 0 8

end Sys2Proof.Machine
end

