-- ==== Sys2Proof/Machine/DecUnit.lean ====
section
/-! DEFINITION. The decoder's transition function (43_decoder.md R155), which drives both records, and the DEC unit's commands (R154, R156 to R162). -/

namespace Sys2Proof.Machine

/-- Document rule 2 (R155): the length byte. `D.total` stays 1 when it exceeds the capacity. -/
def Decoder.takeLength (cap : Nat) (D : Decoder) (b : Byte) : Bool × Decoder :=
  let D1 := { D with explen := b }
  if cap < b.toNat then (false, D1.recordError .invalidLength)
  else (true, { D1 with total := 2#8 })

/-- Document rule 3 (R155): a payload byte, or the checksum byte stored inline after the payload. -/
def Decoder.takePayload (cap : Nat) (D : Decoder) (b : Byte) : Except Fault (Bool × Decoder) :=
  match storePostInc cap D.buf D.widx b with
  | .error f => .error f
  | .ok (m, w) => .ok (true, { D with buf := m, widx := w, total := toByte (D.total.toNat + 1) })

/-- The checksum test of document rule 4 (R155), on a record whose terminal byte was `END_` and whose `total` is at least 4:
`D.paylen` is set before the compare. -/
def Decoder.verify (cap : Nat) (D : Decoder) : Except Fault (Bool × Decoder) :=
  let n := D.total.toNat - 4
  let D1 := { D with paylen := toByte n }
  match loadRange cap D.buf 0 n with
  | .error f => .error f
  | .ok payload =>
    match load cap D.buf n with
    | .error f => .error f
    | .ok received =>
      if crc8Seq 0x00#8 (D.explen :: payload) = received then .ok (true, { D1 with ridx := 0#8 })
      else .ok (false, D1.recordError .invalidChecksum)

/-- Document rule 4 (R155): the terminal byte closes the record; terminator mismatch before the below-4 test before the checksum
test (R255). -/
def Decoder.takeTerminal (cap : Nat) (D : Decoder) (b : Byte) : Except Fault (Bool × Decoder) :=
  let D1 := { D with isOpen := false, total := toByte (D.total.toNat + 1) }
  if b ≠ Config.endByte then .ok (false, D1.recordError .invalidLength)
  else if D.total.toNat + 1 < 4 then .ok (false, D1.recordError .invalidLength)
  else D1.verify cap

/-- `dec_write(D, b)` (R155): one input byte in a record of a block of capacity `cap`; the `accepted` bit and the new record. -/
def Decoder.write (cap : Nat) (D : Decoder) (b : Byte) : Except Fault (Bool × Decoder) :=
  if D.hasErr = true then .ok (false, D)
  else if D.isOpen = false then
    if D.total.toNat = 0 ∧ b = Config.startByte then .ok (true, { D with isOpen := true, total := 1#8 })
    else .ok (false, D)
  else if D.total.toNat = 1 then .ok (D.takeLength cap b)
  else if D.beforeTerminal = true then D.takePayload cap b
  else D.takeTerminal cap b

/-- `for b in rx, in order: dec_write(D, b)`, return values ignored (R200). -/
def Decoder.feed (cap : Nat) (D : Decoder) : List Byte → Except Fault Decoder
  | [] => .ok D
  | b :: rest =>
    match D.write cap b with
    | .error f => .error f
    | .ok (_, D') => Decoder.feed cap D' rest

/-- `DEC_RESET` (R154). -/
def execDecReset (s : State) : Host.Outcome State Fault Refusal :=
  .next ({ s with dec := s.dec.clear }.respond true 0x00#8)

/-- `DEC_WRITE imm8` (R156). -/
def execDecWrite (imm8 : Byte) (s : State) : Host.Outcome State Fault Refusal :=
  match s.dec.write s.cap imm8 with
  | .error f => .fault f
  | .ok (accepted, D) => .next ({ s with dec := D }.respond accepted 0x00#8)

/-- `DEC_AVAIL` (R157). -/
def execDecAvail (s : State) : Host.Outcome State Fault Refusal :=
  .next (s.respond true (if s.dec.doneOk = true then s.dec.paylen - s.dec.ridx else 0x00#8))

/-- `DEC_READ` (R158): the next payload byte of a verified frame, else "no data" (R84). -/
def execDecRead (s : State) : Host.Outcome State Fault Refusal :=
  if s.dec.readable = true then
    match loadPostInc s.cap s.dec.buf s.dec.ridx with
    | .error f => .fault f
    | .ok (v, c) => .next ({ s with dec := { s.dec with ridx := c } }.respond true v)
  else .next (s.respond false 0x00#8)

/-- `DEC_ISOPEN` (R159). -/
def execDecIsopen (s : State) : Host.Outcome State Fault Refusal :=
  .next (s.respond true (boolByte s.dec.isOpen))

/-- `DEC_HASERR` (R160). -/
def execDecHaserr (s : State) : Host.Outcome State Fault Refusal :=
  .next (s.respond true (boolByte s.dec.hasErr))

/-- `DEC_LASTERR` (R161). -/
def execDecLasterr (s : State) : Host.Outcome State Fault Refusal :=
  .next (s.respond true s.dec.err.code)

/-- `DEC_TOTLEN` (R162). -/
def execDecTotlen (s : State) : Host.Outcome State Fault Refusal :=
  .next (s.respond true s.dec.total)

end Sys2Proof.Machine
end

