-- ==== Sys2Proof/Machine/EncUnit.lean ====
section
/-! DEFINITION. The ENC unit's commands (42_encoder.md R121 to R126). -/

namespace Sys2Proof.Machine

/-- The unit's part of `ENC_RESET` (R121): `enc_buf[0] <- START` (index 0 is inside every buffer, `CAP >= 4`), cursor and total 2,
open; the other bytes keep their values. -/
def Encoder.rearm (e : Encoder) : Encoder :=
  { buf := e.buf.write 0 Config.startByte, cur := 2#8, total := 2#8, isOpen := true }

/-- The accepting branch of `ENC_WRITE` (R122). -/
def Encoder.append (cap : Nat) (e : Encoder) (b : Byte) : Except Fault Encoder :=
  match storePostInc cap e.buf e.cur b with
  | .error f => .error f
  | .ok (m, c) => .ok { e with buf := m, cur := c, total := toByte (e.total.toNat + 1) }

/-- The finalizing branch of `ENC_END` (R123) with final length `n = enc_total + 2`: the end sentinel, the length field, then the
checksum over indices `1 .. n-3`, in the rule's order. -/
def Encoder.finalize (cap : Nat) (e : Encoder) : Except Fault Encoder :=
  let n := e.total.toNat + 2
  match store cap e.buf (n - 1) Config.endByte with
  | .error f => .error f
  | .ok m1 =>
    match store cap m1 1 (toByte n) with
    | .error f => .error f
    | .ok m2 =>
      match loadRange cap m2 1 (n - 3) with
      | .error f => .error f
      | .ok covered =>
        match store cap m2 (n - 2) (crc8Seq 0x00#8 covered) with
        | .error f => .error f
        | .ok m3 => .ok { buf := m3, cur := 0#8, total := toByte n, isOpen := false }

/-- `ENC_RESET` (R121). -/
def execEncReset (s : State) : Host.Outcome State Fault Refusal :=
  .next ({ s with enc := s.enc.rearm }.respond true 0x00#8)

/-- `ENC_WRITE imm8` (R122): accepted while open with room, else rejected with no state change. -/
def execEncWrite (imm8 : Byte) (s : State) : Host.Outcome State Fault Refusal :=
  if s.enc.accepts s.cap = true then
    match s.enc.append s.cap imm8 with
    | .error f => .fault f
    | .ok e => .next ({ s with enc := e }.respond true 0x00#8)
  else .next (s.respond false 0x00#8)

/-- `ENC_END` (R123): finalizes an open encoder, ignored by a closed one (D27). -/
def execEncEnd (s : State) : Host.Outcome State Fault Refusal :=
  if s.enc.isOpen = true then
    match s.enc.finalize s.cap with
    | .error f => .fault f
    | .ok e => .next ({ s with enc := e }.respond true (toByte (s.enc.total.toNat + 2)))
  else .next (s.respond false 0x00#8)

/-- `ENC_AVAIL` (R124). -/
def execEncAvail (s : State) : Host.Outcome State Fault Refusal :=
  .next (s.respond true (if s.enc.isOpen = true then 0x00#8 else s.enc.total - s.enc.cur))

/-- `ENC_READ` (R125): the next frame byte while closed and bytes remain, else "no data" (R84). -/
def execEncRead (s : State) : Host.Outcome State Fault Refusal :=
  if s.enc.readable = true then
    match loadPostInc s.cap s.enc.buf s.enc.cur with
    | .error f => .fault f
    | .ok (v, c) => .next ({ s with enc := { s.enc with cur := c } }.respond true v)
  else .next (s.respond false 0x00#8)

/-- `ENC_PKTLEN` (R126): while open 2 more, for the checksum and end bytes not yet appended. -/
def execEncPktlen (s : State) : Host.Outcome State Fault Refusal :=
  .next (s.respond true (if s.enc.isOpen = true then toByte (s.enc.total.toNat + 2) else s.enc.total))

end Sys2Proof.Machine
end

