-- ==== Sys2Proof/Machine/ReqUnit.lean ====
section
/-! DEFINITION. The REQ unit's commands (44_requester.md R191 to R196, R204 to R206). What follows the acceptance of `REQ_START` is in Machine/Requester.lean. -/

namespace Sys2Proof.Machine

/-- `REQ_SET_ADDR imm8` (R191). -/
def execReqSetAddr (imm8 : Byte) (s : State) : Host.Outcome State Fault Refusal :=
  .next ({ s with req := { s.req with addr := imm8 } }.respond true 0x00#8)

/-- `REQ_SET_RESPLEN imm8` (R192). -/
def execReqSetResplen (imm8 : Byte) (s : State) : Host.Outcome State Fault Refusal :=
  .next ({ s with req := { s.req with resplen := imm8 } }.respond true 0x00#8)

/-- `REQ_SET_DELAY_LO imm8` (R193). -/
def execReqSetDelayLo (imm8 : Byte) (s : State) : Host.Outcome State Fault Refusal :=
  .next ({ s with req := { s.req with delay := withLowByte s.req.delay imm8 } }.respond true 0x00#8)

/-- `REQ_SET_DELAY_HI imm8` (R194). -/
def execReqSetDelayHi (imm8 : Byte) (s : State) : Host.Outcome State Fault Refusal :=
  .next ({ s with req := { s.req with delay := withHighByte s.req.delay imm8 } }.respond true 0x00#8)

/-- `REQ_SET_ATTEMPTS imm8` (R195). -/
def execReqSetAttempts (imm8 : Byte) (s : State) : Host.Outcome State Fault Refusal :=
  .next ({ s with req := { s.req with maxatt := imm8 } }.respond true 0x00#8)

/-- The working registers as `REQ_START` leaves them (R196). -/
def Requester.begin (r : Requester) : Requester :=
  { r with
    attempt := 0#8, needtrig := true, lasterr := false, status := .noStatus
    rxlen := 0#8, rxcur := 0#8, rdec := r.rdec.clear, state := .check, trigSent := 0, awaiting := false }

/-- `REQ_START` (R196): the request is accepted; its response comes when the FSM finishes (R202), so none is available now, and
the event trace of this request starts empty. -/
def execReqStart (s : State) : Host.Outcome State Fault Refusal :=
  .next { s with req := s.req.begin, resp := none, trace := [] }

/-- `REQ_STATUS` (R204). -/
def execReqStatus (s : State) : Host.Outcome State Fault Refusal :=
  .next (s.respond true s.req.status.code)

/-- `REQ_AVAIL` (R205). -/
def execReqAvail (s : State) : Host.Outcome State Fault Refusal :=
  .next (s.respond true (s.req.rxlen - s.req.rxcur))

/-- `REQ_READ` (R206): the next byte of the receive buffer (`CAP - 4` bytes, R49), else "no data" (R84). -/
def execReqRead (s : State) : Host.Outcome State Fault Refusal :=
  if s.req.readable = true then
    match loadPostInc (s.cap - 4) s.req.rxbuf s.req.rxcur with
    | .error f => .fault f
    | .ok (v, c) => .next ({ s with req := { s.req with rxcur := c } }.respond true v)
  else .next (s.respond false 0x00#8)

end Sys2Proof.Machine
end

