-- ==== Sys2Proof/Machine/Dispatch.lean ====
section
/-! DEFINITION. The dispatch: one arm per command, each one call of its meaning. -/

namespace Sys2Proof.Machine

/-- Carry out a command that the port has accepted (30_encoding.md R85; `req_state = RQ_IDLE` then, 44_requester.md R209). -/
def exec (i : Instr) (s : State) : Host.Outcome State Fault Refusal :=
  match i with
  | .crcReset => Sys2Proof.Machine.execCrcReset s
  | .crcCalc imm8 => Sys2Proof.Machine.execCrcCalc imm8 s
  | .crcUpdate imm8 => Sys2Proof.Machine.execCrcUpdate imm8 s
  | .crcRead => Sys2Proof.Machine.execCrcRead s
  | .encReset => Sys2Proof.Machine.execEncReset s
  | .encWrite imm8 => Sys2Proof.Machine.execEncWrite imm8 s
  | .encEnd => Sys2Proof.Machine.execEncEnd s
  | .encAvail => Sys2Proof.Machine.execEncAvail s
  | .encRead => Sys2Proof.Machine.execEncRead s
  | .encPktlen => Sys2Proof.Machine.execEncPktlen s
  | .decReset => Sys2Proof.Machine.execDecReset s
  | .decWrite imm8 => Sys2Proof.Machine.execDecWrite imm8 s
  | .decAvail => Sys2Proof.Machine.execDecAvail s
  | .decRead => Sys2Proof.Machine.execDecRead s
  | .decIsopen => Sys2Proof.Machine.execDecIsopen s
  | .decHaserr => Sys2Proof.Machine.execDecHaserr s
  | .decLasterr => Sys2Proof.Machine.execDecLasterr s
  | .decTotlen => Sys2Proof.Machine.execDecTotlen s
  | .reqSetAddr imm8 => Sys2Proof.Machine.execReqSetAddr imm8 s
  | .reqSetResplen imm8 => Sys2Proof.Machine.execReqSetResplen imm8 s
  | .reqSetDelayLo imm8 => Sys2Proof.Machine.execReqSetDelayLo imm8 s
  | .reqSetDelayHi imm8 => Sys2Proof.Machine.execReqSetDelayHi imm8 s
  | .reqSetAttempts imm8 => Sys2Proof.Machine.execReqSetAttempts imm8 s
  | .reqStart => Sys2Proof.Machine.execReqStart s
  | .reqStatus => Sys2Proof.Machine.execReqStatus s
  | .reqAvail => Sys2Proof.Machine.execReqAvail s
  | .reqRead => Sys2Proof.Machine.execReqRead s

end Sys2Proof.Machine
end

