-- ==== Sys2Proof/Machine/Requester.lean ====
section
/-! DEFINITION. The requester FSM: the micro-steps of 44_requester.md R197 to R202, one definition each, and the choice among them by `req_state`. -/

namespace Sys2Proof.Machine

/-- `TRIG`, the trigger frame `02 04 61 04` (R93, R207). -/
def triggerFrame : List Byte := [Config.startByte, 0x04#8, 0x61#8, Config.endByte]

/-- The six events of a trigger send, in order (R198). -/
def triggerEvents (addr : Byte) : List Event :=
  Event.txBegin addr :: (triggerFrame.map Event.txWrite ++ [Event.txEnd])

/-- `finish(s)` (R202): the status, the FSM back in RQ_IDLE, and the response of `REQ_START`. -/
def State.finish (s : State) (st : ReqStatus) : State :=
  { s with req := { s.req with status := st, state := .idle, awaiting := false } }.respond (decide (st = ReqStatus.packetRead)) st.code

/-- `finish_exhausted()` (R202). -/
def State.finishExhausted (s : State) : State :=
  s.finish (if s.req.lasterr = true then .packetError else .attemptsExhausted)

/-- Micro-step in `RQ_CHECK` (R197). -/
def microCheck (s : State) : State :=
  if s.req.attempt.toNat < s.req.maxatt.toNat then
    { s with req := { s.req with state := if s.req.needtrig = true then .trig else .wait } }
  else s.finishExhausted

/-- The micro-step in `RQ_TRIG` (R198), one event a step, as R198 lets an implementation spread the six over time and R280 lets a
hardware reset fall between them (log 15): the next event goes out, and with the last one the flag is cleared and the FSM moves
on. -/
def microTrig (s : State) : State :=
  let s1 := s.emit (((triggerEvents s.req.addr).drop s.req.trigSent.val).take 1)
  if s.req.trigSent.val < 5 then { s1 with req := { s1.req with trigSent := s.req.trigSent + 1 } }
  else { s1 with req := { s1.req with trigSent := 0, needtrig := false, state := .wait } }

/-- The argument of the backoff wait, `req_delay * (req_attempt + 1)`, exact (R199, R13). -/
def Requester.waitTime (r : Requester) : Nat := r.delay.toNat * (r.attempt.toNat + 1)

/-- Emit the event of the present micro-step unless it is already out (log 5). -/
def State.emitOnce (s : State) (e : Event) : State :=
  if s.req.awaiting = true then s else { s with req := { s.req with awaiting := true } }.emit [e]

/-- Micro-step in `RQ_WAIT` (R199): the event goes out, and ENV's `done` moves the FSM on; without it the FSM stays (R208). -/
def microWait (s : State) : State :=
  let s1 := s.emitOnce (.wait s.req.waitTime)
  match s1.envDone with
  | 0 => s1
  | k + 1 => { s1 with envDone := k, req := { s1.req with awaiting := false, state := .poll } }

/-- What a poll answer does (R200): an empty one finishes with peer-not-found, any other is fed to `rdec`, every byte of it. -/
def takeAnswer (s : State) (rx : List Byte) : Except Fault State :=
  match rx with
  | [] => .ok (s.finish .peerNotFound)
  | _ :: _ =>
    match s.req.rdec.feed s.cap rx with
    | .error f => .error f
    | .ok D => .ok { s with req := { s.req with rdec := D, awaiting := false, state := .eval } }

/-- Micro-step in `RQ_POLL` (R200): the event goes out, and ENV's answer is taken; without one the FSM stays (R208). -/
def microPoll (s : State) : Except Fault State :=
  let s1 := s.emitOnce (.poll s.req.addr s.req.resplen)
  match s1.envPolls with
  | [] => .ok s1
  | rx :: rest => takeAnswer { s1 with envPolls := rest } rx

/-- The success branch of `RQ_EVAL` (R201, document step 3): the payload is copied into the receive buffer. -/
def takePayload (s : State) : Except Fault State :=
  match loadRange s.cap s.req.rdec.buf 0 s.req.rdec.paylen.toNat with
  | .error f => .error f
  | .ok payload =>
    match storeList (s.cap - 4) s.req.rxbuf 0 payload with
    | .error f => .error f
    | .ok m =>
      .ok ({ s with req := { s.req with rxbuf := m, rxlen := s.req.rdec.paylen, rxcur := 0#8 } }.finish .packetRead)

/-- Micro-step in `RQ_EVAL` (R201): success, then a decoder error, then everything else (R255, C2, C3). -/
def microEval (s : State) : Except Fault State :=
  if s.req.rdec.doneOk = true then takePayload s
  else if s.req.rdec.hasErr = true then
    .ok { s with req := { s.req with
            rdec := s.req.rdec.clear, needtrig := true, lasterr := true
            attempt := toByte (s.req.attempt.toNat + 1), state := .check } }
  else
    .ok { s with req := { s.req with
            lasterr := false, attempt := toByte (s.req.attempt.toNat + 1), state := .check } }

/-- One micro-step of the requester FSM (R48, R190); in RQ_IDLE there is none to take. -/
def requesterStep (s : State) : Host.Outcome State Fault Refusal :=
  match s.req.state with
  | .idle => .next s
  | .check => .next (microCheck s)
  | .trig => .next (microTrig s)
  | .wait => .next (microWait s)
  | .poll => outcomeOf (microPoll s)
  | .eval => outcomeOf (microEval s)

end Sys2Proof.Machine
end

