-- ==== Sys2Proof/Machine/Step.lean ====
section
/-! DEFINITION. One step of the machine: the reset input first (70_reset_and_hazards.md R280), then the requester while a request runs (44_requester.md R209), else HOST's next command (00_scope.md R9). -/

namespace Sys2Proof.Machine

/-- One step on a ready command port: HOST's next word is decoded and carried out, or answered as illegal (R86). While HOST issues
nothing, nothing changes (20_memory.md R70 (2)). -/
def commandStep (s : State) : Host.Outcome State Fault Refusal :=
  match s.fetch with
  | none => .next s
  | some (w, s1) =>
    match decode w with
    | .instr i => exec i s1
    | .illegal _ => .next s1.respondIllegal

/-- One step. -/
def step (s : State) : Host.Outcome State Fault Refusal :=
  if s.resetPin = true then .next s.hardReset
  else if s.req.state = .idle then commandStep s
  else requesterStep s

/-- HOST issues the command word whose low `nbits` bits are those of `w` (the bits above are 0) as the very next one, on a port
that is ready for it (log 1, log 14). -/
def State.withFetchWord (s : State) (nbits w : Nat) : State :=
  s.present (BitVec.ofNat 16 (w % 2 ^ nbits))

end Sys2Proof.Machine
end

