-- ==== Sys2Proof/Machine/BigStep.lean ====
section
/-! DEFINITION. The whole request as one function (44_requester.md R203), a restatement of the micro-steps that statements compare them with. -/

namespace Sys2Proof.Machine

/-- What a finished request leaves: R203's status and trace, the received payload, and the working registers. -/
structure RequestResult where
  status : ReqStatus
  events : List Event
  payload : List Byte
  attempt : Nat
  needtrig : Bool
  lasterr : Bool
  rdec : Decoder
  deriving DecidableEq, Repr

/-- The events of one iteration: the trigger if one is needed, the wait, the poll (R203). -/
def iterationEvents (addr resplen : Byte) (d : Delay) (attempt : Nat) (needtrig : Bool) : List Event :=
  (if needtrig = true then triggerEvents addr else []) ++ [.wait (d.toNat * (attempt + 1)), .poll addr resplen]

/-- R203's loop with `left = m - attempt` iterations to go; `none` when ENV gives no more answers, so that the request never
finishes (R208). -/
def requestLoop (cap : Nat) (addr resplen : Byte) (d : Delay) :
    Nat → Nat → Bool → Bool → Decoder → List (List Byte) → List Event → Except Fault (Option RequestResult)
  | 0, attempt, needtrig, lasterr, D, _, es =>
    .ok (some { status := if lasterr = true then .packetError else .attemptsExhausted, events := es, payload := []
                attempt := attempt, needtrig := needtrig, lasterr := lasterr, rdec := D })
  | _ + 1, _, _, _, _, [], _ => .ok none
  | _ + 1, attempt, needtrig, lasterr, D, [] :: _, es =>
    .ok (some { status := .peerNotFound, events := es ++ iterationEvents addr resplen d attempt needtrig, payload := []
                attempt := attempt, needtrig := false, lasterr := lasterr, rdec := D })
  | left + 1, attempt, needtrig, lasterr, D, (b :: bs) :: rest, es =>
    let es1 := es ++ iterationEvents addr resplen d attempt needtrig
    match D.feed cap (b :: bs) with
    | .error f => .error f
    | .ok D1 =>
      if D1.doneOk = true then
        match loadRange cap D1.buf 0 D1.paylen.toNat with
        | .error f => .error f
        | .ok payload =>
          .ok (some { status := .packetRead, events := es1, payload := payload
                      attempt := attempt, needtrig := false, lasterr := lasterr, rdec := D1 })
      else if D1.hasErr = true then
        requestLoop cap addr resplen d left (attempt + 1) true true D1.clear rest es1
      else requestLoop cap addr resplen d left (attempt + 1) false false D1 rest es1

/-- `request(addr, resplen, d, m, answers)` (R203) of a block of capacity `cap` whose private record is `D`. -/
def request (cap : Nat) (addr resplen : Byte) (d : Delay) (m : Nat) (D : Decoder) (answers : List (List Byte)) :
    Except Fault (Option RequestResult) :=
  requestLoop cap addr resplen d m 0 true false D.clear answers []

end Sys2Proof.Machine
end

