-- ==== Sys2Proof/Machine/Frame.lean ====
section
/-! DEFINITION. The wire format of a frame as a byte list (30_encoding.md R92; 42_encoder.md R127), in the terms statements use. -/

namespace Sys2Proof.Machine

/-- `encode(p)` (R127): `[START, |p| + 4] ++ p ++ [crc8_seq(0x00, [|p| + 4] ++ p), END_]`. -/
def frameOf (p : List Byte) : List Byte :=
  let len := toByte (p.length + 4)
  [Config.startByte, len] ++ p ++ [crc8Seq 0x00#8 (len :: p), Config.endByte]

end Sys2Proof.Machine
end

