-- ==== Sys2Proof/Safety.lean ====
section
/-! DEFINITION. What statements say of states: the reset table (10_state.md R57), the invariants of the units (R30, R41, R52) and of the whole machine, and when the command port is ready. -/

namespace Sys2Proof.Machine

/-- The command port takes HOST's next word at the next step: no hardware reset asserted, no request running (R209, R280). -/
def State.Ready (s : State) : Prop := s.resetPin = false ∧ s.req.state = .idle

/-- A micro-step of the requester is next: no hardware reset asserted, and the FSM in state `q` (R48). -/
def State.Running (s : State) (q : ReqState) : Prop := s.resetPin = false ∧ s.req.state = q ∧ q ≠ .idle

/-- The decoder rows of R57; every byte of the buffer is unspecified, and a read of it has no value. -/
def Decoder.AtReset (D : Decoder) : Prop :=
  D.isOpen = false ∧ D.err = .noError ∧ D.total = 0#8 ∧ D.explen = 0#8 ∧ D.paylen = 0#8 ∧ D.widx = 0#8 ∧ D.ridx = 0#8 ∧
  ∀ i, D.buf.read i = none

/-- R57's table, row by row; an unspecified byte has no value. -/
def State.AtReset (s : State) : Prop :=
  s.crcAcc = 0x00#8 ∧
  (s.enc.isOpen = true ∧ s.enc.cur = 2#8 ∧ s.enc.total = 2#8 ∧ s.enc.buf.read 0 = some Config.startByte ∧
    ∀ i, i ≠ 0 → s.enc.buf.read i = none) ∧
  s.dec.AtReset ∧ s.req.rdec.AtReset ∧
  (s.req.addr = 0#8 ∧ s.req.resplen = 0#8 ∧ s.req.delay = 0#16 ∧ s.req.maxatt = 0#8) ∧
  (s.req.attempt = 0#8 ∧ s.req.needtrig = false ∧ s.req.lasterr = false) ∧
  s.req.status = .noStatus ∧ s.req.state = .idle ∧
  (s.req.rxlen = 0#8 ∧ s.req.rxcur = 0#8 ∧ ∀ i, s.req.rxbuf.read i = none)

/-- A buffer of `size` bytes holds the canonical form and nothing outside the buffer (R60). -/
def Memory.Sound (size : Nat) (m : Memory) : Prop := m.wf = true ∧ m.within size = true

/-- Every buffer of the block is sound (R60: `CAP` bytes each, the receive buffer `CAP - 4`). -/
def State.BuffersSound (s : State) : Prop :=
  s.enc.buf.Sound s.cap ∧ s.dec.buf.Sound s.cap ∧ s.req.rdec.buf.Sound s.cap ∧ s.req.rxbuf.Sound (s.cap - 4)

/-- The encoder invariants: R30 (a) while open, R30 (b) while closed, and (c), every index the rules read holds a byte; with the start
sentinel at index 0 in both phases (R25). -/
def Encoder.Inv (cap : Nat) (e : Encoder) : Prop :=
  e.buf.read 0 = some Config.startByte ∧
  (e.isOpen = true →
    e.cur = e.total ∧ 2 ≤ e.total.toNat ∧ e.total.toNat ≤ cap - 2 ∧
    ∀ i, 2 ≤ i → i < e.total.toNat → (e.buf.read i).isSome = true) ∧
  (e.isOpen = false →
    4 ≤ e.total.toNat ∧ e.total.toNat ≤ cap ∧ e.cur.toNat ≤ e.total.toNat ∧
    e.buf.read 1 = some e.total ∧ e.buf.read (e.total.toNat - 1) = some Config.endByte ∧
    (∀ i, i < e.total.toNat → (e.buf.read i).isSome = true) ∧
    ∃ covered, loadRange cap e.buf 1 (e.total.toNat - 3) = .ok covered ∧
      e.buf.read (e.total.toNat - 2) = some (crc8Seq 0x00#8 covered))

/-- The record is what a reset record becomes when the bytes `xs` are presented to it, but for what `DEC_READ` does to the read
cursor: `xs` is the input since the last reset (R41 (c), R155; log 18). -/
def Decoder.Since (cap : Nat) (D : Decoder) (xs : List Byte) : Prop :=
  ∃ D0 : Decoder, D0.clear.feed cap xs = .ok { D with ridx := 0#8 }

/-- The bytes of an input that come after its first START byte and the length byte (R155, document rules 1 to 3). -/
def afterLength (xs : List Byte) : List Byte := (xs.dropWhile (fun b => b != Config.startByte)).drop 2

/-- The decoder invariants R41 (a) to (e); "stored since the last reset" in (c) is said of the input since the last reset, byte by
byte. The clause on an open record past its length byte is what makes (a) and (c) inductive. -/
def Decoder.Inv (cap : Nat) (D : Decoder) : Prop :=
  (D.total.toNat ≤ cap ∧ (2 ≤ D.total.toNat → D.total.toNat ≤ max D.explen.toNat 3)) ∧
  (D.isOpen = true → D.err = .noError ∧ 1 ≤ D.total.toNat ∧ D.widx.toNat = D.total.toNat - 2) ∧
  (D.isOpen = true → 2 ≤ D.total.toNat →
    D.explen.toNat ≤ cap ∧ (D.total.toNat = 2 ∨ D.total.toNat < D.explen.toNat)) ∧
  (D.widx.toNat ≤ cap - 3 ∧
    ∃ xs, D.Since cap xs ∧ D.widx.toNat ≤ (afterLength xs).length ∧
      ∀ i, i < D.widx.toNat → D.buf.read i = (afterLength xs)[i]?) ∧
  (D.doneOk = true →
    D.total = D.explen ∧ 4 ≤ D.total.toNat ∧ D.paylen.toNat = D.total.toNat - 4 ∧ D.widx.toNat = D.paylen.toNat + 1 ∧
    D.ridx.toNat ≤ D.paylen.toNat ∧
    ∃ payload, loadRange cap D.buf 0 D.paylen.toNat = .ok payload ∧
      D.buf.read D.paylen.toNat = some (crc8Seq 0x00#8 (D.explen :: payload))) ∧
  (D.total.toNat = 0 → D.isOpen = false ∧ D.err = .noError ∧ D.widx = 0#8)

/-- The requester invariants (R52), with what the micro-steps keep: the status is none while a request runs (R202), a failed or
running request exposes no payload (R49), and after packet-read the receive buffer holds the verified payload of `rdec` (R52).
R52's first clause is here for a running request only: `REQ_SET_ATTEMPTS` may lower `req_maxatt` afterwards (log 12). The count of
trigger events out is 0 outside RQ_TRIG (log 15). -/
def Requester.Inv (cap : Nat) (r : Requester) : Prop :=
  r.rdec.Inv cap ∧
  (r.rxcur.toNat ≤ r.rxlen.toNat ∧ r.rxlen.toNat ≤ cap - 4) ∧
  (r.status ≠ .packetRead → r.rxlen = 0#8) ∧
  (r.status = .packetRead →
    r.rdec.doneOk = true ∧ r.rxlen = r.rdec.paylen ∧
    ∀ i, i < r.rxlen.toNat → (r.rxbuf.read i).isSome = true ∧ r.rxbuf.read i = r.rdec.buf.read i) ∧
  (r.state ≠ .idle → r.status = .noStatus ∧ r.attempt.toNat ≤ r.maxatt.toNat) ∧
  (r.state = .trig ∨ r.state = .wait ∨ r.state = .poll ∨ r.state = .eval → r.attempt.toNat < r.maxatt.toNat) ∧
  (r.state = .check ∨ r.state = .trig ∨ r.state = .wait ∨ r.state = .poll →
    r.rdec.err = .noError ∧ r.rdec.doneOk = false) ∧
  (r.state = .trig → r.needtrig = true) ∧
  (r.state = .wait ∨ r.state = .poll ∨ r.state = .eval → r.needtrig = false) ∧
  (r.awaiting = true → r.state = .wait ∨ r.state = .poll) ∧
  (r.trigSent ≠ 0 → r.state = .trig)

/-- The port's side: no response is available while a request runs (R82, R209), and a response with `ill = 1` has `f = 0` and
`d = 0x00` (R82). -/
def State.PortInv (s : State) : Prop :=
  (s.req.state ≠ .idle → s.resp = none) ∧
  ∀ w, s.resp = some w → w.getLsbD 9 = true → w = 0x200#10

/-- The invariant of the whole machine. -/
def State.Inv (s : State) : Prop :=
  s.BuffersSound ∧ s.enc.Inv s.cap ∧ s.dec.Inv s.cap ∧ s.req.Inv s.cap ∧ s.PortInv

/-- How many `Poll` events a trace holds (R210 (d)). -/
def pollCount (es : List Event) : Nat := es.countP (fun e => match e with | .poll _ _ => true | _ => false)

/-- The sum of the `Wait` arguments of a trace (R288). -/
def waitSum (es : List Event) : Nat := (es.map (fun e => match e with | .wait t => t | _ => 0)).sum

/-- `k` steps of the machine, stopping at the first fault or refusal. -/
def runFrom : Nat → State → Host.Outcome State Fault Refusal
  | 0, s => .next s
  | k + 1, s =>
    match step s with
    | .next t => runFrom k t
    | .fault f => .fault f
    | .refused r => .refused r

/-- The commands that can be rejected or answer "no data", all others answer `f = 1` (R83, R253). -/
def mayReject : Instr → Bool
  | .encWrite _ | .encEnd | .encRead | .decWrite _ | .decRead | .reqRead => true
  | .crcReset | .crcCalc _ | .crcUpdate _ | .crcRead | .encReset | .encAvail | .encPktlen => false
  | .decReset | .decAvail | .decIsopen | .decHaserr | .decLasterr | .decTotlen => false
  | .reqSetAddr _ | .reqSetResplen _ | .reqSetDelayLo _ | .reqSetDelayHi _ | .reqSetAttempts _ => false
  | .reqStart | .reqStatus | .reqAvail => false

/-- R68's query commands, which "have no side effect and are idempotent". -/
def queryCommands : List Instr :=
  [.encAvail, .encPktlen, .decAvail, .decIsopen, .decHaserr, .decLasterr, .decTotlen, .reqStatus, .reqAvail, .crcRead]

/-- A safe step: the machine goes on, with neither a fault nor a refusal (R250, R62). -/
def State.Goes (s : State) : Prop := ∃ t, step s = .next t

end Sys2Proof.Machine
end

