-- ==== Sys2Proof/Certificates/Slice0/Obligations.lean ====
section
/-! DEFINITION. The statements for the provers. Each says what the cited rules of spec/ say of the model. -/

open Sys2Proof Sys2Proof.Machine

/-- Words of every unit written out from R85's map, with illegal ones of both kinds of R86. -/
def Obligations.DecodeReadsWrittenOutWords : Prop :=
  decode 0x1000#16 = .instr .crcReset ∧ decode 0x1231#16 = .instr (.crcUpdate 0x31#8) ∧
  decode 0x2148#16 = .instr (.encWrite 0x48#8) ∧ decode 0x2200#16 = .instr .encEnd ∧
  decode 0x31FF#16 = .instr (.decWrite 0xFF#8) ∧ decode 0x3700#16 = .instr .decTotlen ∧
  decode 0x420A#16 = .instr (.reqSetDelayLo 0x0A#8) ∧ decode 0x4500#16 = .instr .reqStart ∧
  decode 0x4800#16 = .instr .reqRead ∧
  decode 0x2201#16 = .illegal .operandNotZero ∧ decode 0x13FF#16 = .illegal .operandNotZero ∧
  decode 0x0000#16 = .illegal .unknownOpcode ∧ decode 0x4900#16 = .illegal .unknownOpcode ∧
  decode 0xFFFF#16 = .illegal .unknownOpcode

/-- Decode and encode agree on every command (R80, R81, R85, R94): no bit of an encoding is dropped. -/
def Obligations.DecodeOfEncodeIsTheCommand : Prop :=
  ∀ i : Instr, i.wellFormed = true → decode (encode i) = .instr i

/-- Every legal word is the encoding of what it decodes to (R81: at most one row matches a word). -/
def Obligations.EncodeOfDecodeIsTheWord : Prop :=
  ∀ (w : CmdWord) (i : Instr), decode w = .instr i → i.wellFormed = true ∧ encode i = w

/-- R86 (a) and (b), against the check of WellFormed.lean, which is written from R85's nibbles and R81's list. -/
def Obligations.IllegalWordsAreThoseOutsideTheMap : Prop :=
  ∀ w : CmdWord,
    (decode w = .illegal .unknownOpcode ↔ opcodeKnown (w.extractLsb' 8 8) = false) ∧
    (decode w = .illegal .operandNotZero ↔
      opcodeKnown (w.extractLsb' 8 8) = true ∧ opcodeTakesByte (w.extractLsb' 8 8) = false ∧ w.extractLsb' 0 8 ≠ 0#8) ∧
    ((∃ i, decode w = .instr i) ↔ wordLegal w = true)

/-- The layout of R82 and the distinctness of R84. -/
def Obligations.ResponseWordHasTheThreeFields : Prop :=
  ∀ (ill f : Bool) (d b : Byte),
    (respWord ill f d).getLsbD 9 = ill ∧ (respWord ill f d).getLsbD 8 = f ∧ (respWord ill f d).extractLsb' 0 8 = d ∧
    respWord false false 0x00#8 ≠ respWord false true b

/-- The per-command statements reach a step through this one (R9, R70); the command stream is the model's input (log 1). -/
def Obligations.StepRunsTheDecodedCommand : Prop :=
  ∀ (s : State) (w : CmdWord) (rest : List CmdWord) (i : Instr),
    s.Ready → s.hostCmds = w :: rest → decode w = .instr i → step s = exec i { s with hostCmds := rest }

/-- R254. The consumed word is HOST's (log 1), the response word is the port's. -/
def Obligations.IllegalWordIsAnsweredIllegal : Prop :=
  ∀ (s : State) (w : CmdWord) (rest : List CmdWord),
    s.Ready → s.hostCmds = w :: rest → wordLegal w = false →
    step s = .next { s with hostCmds := rest, resp := some (respWord true false 0x00#8) }

/-- R70 (2), no state changes between two commands; the idle step itself is the model's choice (log 2). -/
def Obligations.NothingChangesBetweenCommands : Prop :=
  ∀ s : State, s.Ready → s.hostCmds = [] → step s = .next s

/-- R280 and R57; what the inputs do is the model's choice (log 11). -/
def Obligations.HardwareResetGivesTheResetTable : Prop :=
  ∀ s : State, s.resetPin = true →
    ∃ t, step s = .next t ∧ t.AtReset ∧ t.Ready ∧ t.resp = none ∧ t.trace = s.trace ∧ t.cap = s.cap ∧
      t.hostCmds = s.hostCmds ∧ t.envDone = s.envDone ∧ t.envPolls = s.envPolls

/-- R57's table, row by row. -/
def Obligations.ResetStateHoldsTheResetTable : Prop :=
  State.reset.AtReset ∧ ∀ p : Config.MaxPayload, (State.resetWith p).AtReset

/-- R209 and R207: nothing but the request itself moves while a request runs. -/
def Obligations.PortIsStalledWhileARequestRuns : Prop :=
  ∀ s t : State, s.resetPin = false → s.req.state ≠ .idle → step s = .next t →
    t.hostCmds = s.hostCmds ∧ t.crcAcc = s.crcAcc ∧ t.enc = s.enc ∧ t.dec = s.dec ∧ t.cap = s.cap ∧
    t.req.addr = s.req.addr ∧ t.req.resplen = s.req.resplen ∧ t.req.delay = s.req.delay ∧ t.req.maxatt = s.req.maxatt

/-- R70 (3), R109, R128, R50: the units' states are disjoint. -/
def Obligations.UnitsAreIsolated : Prop :=
  ∀ (i : Instr) (s t : State), exec i s = .next t →
    (i.unit ≠ .crc → t.crcAcc = s.crcAcc) ∧ (i.unit ≠ .enc → t.enc = s.enc) ∧ (i.unit ≠ .dec → t.dec = s.dec) ∧
    (i.unit ≠ .req → t.req = s.req ∧ t.trace = s.trace) ∧
    t.maxPayload = s.maxPayload ∧ t.hostCmds = s.hostCmds ∧ t.resetPin = s.resetPin ∧ t.envDone = s.envDone ∧
    t.envPolls = s.envPolls

/-- R82, R83, R250. -/
def Obligations.EveryCommandAnswersOneResponse : Prop :=
  ∀ (i : Instr) (s : State),
    (∀ r, exec i s ≠ .refused r) ∧
    ∀ t, exec i s = .next t →
      (i = .reqStart ∧ t.resp = none) ∨
      ∃ f d, t.resp = some (respWord false f d) ∧ (mayReject i = false → f = true) ∧ (f = false → d = 0x00#8)

/-- R253's list and its last paragraph. -/
def Obligations.RejectedCommandsChangeNothing : Prop :=
  ∀ (i : Instr) (s t : State) (d : Byte), exec i s = .next t → t.resp = some (respWord false false d) →
    t = { s with resp := t.resp } ∨
    ((∃ b, i = .decWrite b) ∧ s.dec.err = .noError ∧ t.dec.err ≠ .noError)

/-- R68, the sentence on the query commands. -/
def Obligations.QueriesChangeOnlyTheResponse : Prop :=
  ∀ i ∈ queryCommands, ∀ s : State,
    ∃ f d, exec i s = .next { s with resp := some (respWord false f d) } ∧
      exec i { s with resp := some (respWord false f d) } = .next { s with resp := some (respWord false f d) }

/-- R55's table of writers, for the commands, and R260. -/
def Obligations.FlagsChangeOnlyUnderTheirCommands : Prop :=
  ∀ (i : Instr) (s t : State), exec i s = .next t →
    (t.enc.isOpen ≠ s.enc.isOpen → i = .encReset ∨ i = .encEnd) ∧
    (t.dec.isOpen ≠ s.dec.isOpen → i = .decReset ∨ ∃ b, i = .decWrite b) ∧
    (t.dec.err ≠ s.dec.err → i = .decReset ∨ (s.dec.err = .noError ∧ ∃ b, i = .decWrite b)) ∧
    (t.req.needtrig ≠ s.req.needtrig ∨ t.req.lasterr ≠ s.req.lasterr ∨ t.req.status ≠ s.req.status → i = .reqStart)

/-- R103 to R106. -/
def Obligations.CrcCommandsSetTheAccumulator : Prop :=
  ∀ (s : State) (b : Byte),
    (encode .crcReset = 0x1000#16 ∧ encode (.crcCalc b) = 0x11#8 ++ b ∧ encode (.crcUpdate b) = 0x12#8 ++ b ∧
      encode .crcRead = 0x1300#16) ∧
    exec .crcReset s = .next { s with crcAcc := 0x00#8, resp := some (respWord false true 0x00#8) } ∧
    exec (.crcCalc b) s =
      .next { s with crcAcc := crc8Step 0x00#8 b, resp := some (respWord false true (crc8Step 0x00#8 b)) } ∧
    exec (.crcUpdate b) s =
      .next { s with crcAcc := crc8Step s.crcAcc b, resp := some (respWord false true (crc8Step s.crcAcc b)) } ∧
    exec .crcRead s = .next { s with resp := some (respWord false true s.crcAcc) }

/-- R107, in the functions of R102. -/
def Obligations.CrcIncrementalEquivalence : Prop :=
  ∀ (a : Byte) (xs ys : List Byte), crc8Seq a (xs ++ ys) = crc8Seq (crc8Seq a xs) ys

/-- R108 (a) to (d), which the spec derives from R101's bit loop. -/
def Obligations.CrcStepIsLinearAndInvertible : Prop :=
  crc8Step 0x00#8 0x00#8 = 0x00#8 ∧
  (∀ a a' b b' : Byte, crc8Step (a ^^^ a') (b ^^^ b') = crc8Step a b ^^^ crc8Step a' b') ∧
  (∀ a b : Byte, crc8Step a b = crc8Step (a ^^^ b) 0x00#8) ∧
  (∀ b : Byte, Function.Bijective (fun a => crc8Step a b)) ∧
  (∀ a : Byte, Function.Bijective (fun b => crc8Step a b))

/-- R108 (e). -/
def Obligations.ChecksumAppendedLeavesResidueZero : Prop :=
  ∀ xs : List Byte, crc8Seq 0x00#8 (xs ++ [crc8Seq 0x00#8 xs]) = 0x00#8

/-- R108 (g): the sequences agree but for bit k of one byte. -/
def Obligations.SingleBitFlipChangesTheChecksum : Prop :=
  ∀ (a : Byte) (before after : List Byte) (b : Byte) (k : Nat), k < 8 →
    crc8Seq a (before ++ b :: after) ≠ crc8Seq a (before ++ (b ^^^ (1#8 <<< k)) :: after)

/-- R121. -/
def Obligations.EncResetRearmsTheEncoder : Prop :=
  ∀ s : State, encode .encReset = 0x2000#16 ∧
    ∃ t, exec .encReset s = .next t ∧ t = { s with enc := t.enc, resp := some (respWord false true 0x00#8) } ∧
      t.enc.isOpen = true ∧ t.enc.cur = 2#8 ∧ t.enc.total = 2#8 ∧
      t.enc.buf.read 0 = some Config.startByte ∧ ∀ i, i ≠ 0 → t.enc.buf.read i = s.enc.buf.read i

/-- R122; the stored index is the cursor before the access (R61). -/
def Obligations.EncWriteAppendsOrRejects : Prop :=
  ∀ (s : State) (b : Byte), encode (.encWrite b) = 0x21#8 ++ b ∧
    (s.enc.isOpen = true → s.enc.total.toNat + 1 ≤ s.cap - 2 → s.enc.cur.toNat < s.cap →
      ∃ t, exec (.encWrite b) s = .next t ∧ t = { s with enc := t.enc, resp := some (respWord false true 0x00#8) } ∧
        t.enc.isOpen = true ∧ t.enc.cur = s.enc.cur + 1#8 ∧ t.enc.total = s.enc.total + 1#8 ∧
        t.enc.buf.read s.enc.cur.toNat = some b ∧
        ∀ i, i ≠ s.enc.cur.toNat → t.enc.buf.read i = s.enc.buf.read i) ∧
    (¬(s.enc.isOpen = true ∧ s.enc.total.toNat + 1 ≤ s.cap - 2) →
      exec (.encWrite b) s = .next { s with resp := some (respWord false false 0x00#8) })

/-- R123; the three stored indices are computed from `enc_total` as the rule says. -/
def Obligations.EncEndFinalizesOrIsIgnored : Prop :=
  ∀ s : State, encode .encEnd = 0x2200#16 ∧
    (∀ p n, s.enc.isOpen = true → 2 ≤ s.enc.total.toNat → s.enc.total.toNat ≤ s.cap - 2 →
      loadRange s.cap s.enc.buf 2 (s.enc.total.toNat - 2) = .ok p → n = s.enc.total.toNat + 2 →
      ∃ t, exec .encEnd s = .next t ∧ t = { s with enc := t.enc, resp := some (respWord false true (toByte n)) } ∧
        t.enc.isOpen = false ∧ t.enc.cur = 0#8 ∧ t.enc.total.toNat = n ∧
        t.enc.buf.read (n - 1) = some Config.endByte ∧ t.enc.buf.read 1 = some (toByte n) ∧
        t.enc.buf.read (n - 2) = some (crc8Seq 0x00#8 (toByte n :: p)) ∧
        ∀ i, i ≠ 1 → i ≠ n - 2 → i ≠ n - 1 → t.enc.buf.read i = s.enc.buf.read i) ∧
    (s.enc.isOpen = false → exec .encEnd s = .next { s with resp := some (respWord false false 0x00#8) })

/-- R63 and R127: the closed buffer is `encode(p)`. -/
def Obligations.EncEndLeavesTheWholeFrame : Prop :=
  ∀ (s : State) (p : List Byte),
    s.enc.isOpen = true → 2 ≤ s.enc.total.toNat → s.enc.total.toNat ≤ s.cap - 2 →
    s.enc.buf.read 0 = some Config.startByte →
    loadRange s.cap s.enc.buf 2 (s.enc.total.toNat - 2) = .ok p →
    ∃ t, exec .encEnd s = .next t ∧ t.enc.total.toNat = p.length + 4 ∧ t.enc.cur = 0#8 ∧
      loadRange s.cap t.enc.buf 0 (p.length + 4) = .ok (frameOf p)

/-- R124, R126. -/
def Obligations.EncQueriesAnswerTheirCounts : Prop :=
  ∀ s : State, encode .encAvail = 0x2300#16 ∧ encode .encPktlen = 0x2500#16 ∧
    (s.enc.isOpen = true →
      exec .encAvail s = .next { s with resp := some (respWord false true 0x00#8) } ∧
      exec .encPktlen s = .next { s with resp := some (respWord false true (s.enc.total + 2#8)) }) ∧
    (s.enc.isOpen = false →
      exec .encAvail s = .next { s with resp := some (respWord false true (s.enc.total - s.enc.cur)) } ∧
      exec .encPktlen s = .next { s with resp := some (respWord false true s.enc.total) })

/-- R126: the value does not change across `ENC_END`. -/
def Obligations.PacketLengthIsTheSameAcrossEnd : Prop :=
  ∀ s t : State, exec .encEnd s = .next t →
    ∃ r, exec .encPktlen s = .next { s with resp := some r } ∧ exec .encPktlen t = .next { t with resp := some r }

/-- R125. -/
def Obligations.EncReadConsumesOrAnswersNoData : Prop :=
  ∀ s : State, encode .encRead = 0x2400#16 ∧
    (∀ v, s.enc.isOpen = false → s.enc.cur.toNat < s.enc.total.toNat → s.enc.cur.toNat < s.cap →
      s.enc.buf.read s.enc.cur.toNat = some v →
      exec .encRead s =
        .next { s with enc := { s.enc with cur := s.enc.cur + 1#8 }, resp := some (respWord false true v) }) ∧
    (¬(s.enc.isOpen = false ∧ s.enc.cur.toNat < s.enc.total.toNat) →
      exec .encRead s = .next { s with resp := some (respWord false false 0x00#8) })

/-- R30 (a), (b), (c) as an inductive invariant of the whole machine's step. -/
def Obligations.EncoderInvariantIsKept : Prop :=
  ∀ s t : State, s.enc.Inv s.cap → step s = .next t → t.enc.Inv t.cap

/-- R154, R151. -/
def Obligations.DecResetClearsTheRecord : Prop :=
  ∀ s : State, encode .decReset = 0x3000#16 ∧
    exec .decReset s = .next { s with
      dec := { buf := s.dec.buf, widx := 0#8, ridx := 0#8, total := 0#8, explen := 0#8, paylen := 0#8, isOpen := false, err := .noError }
      resp := some (respWord false true 0x00#8) }

/-- R165, row for row. `S[i]` of the checksum rows is read through the model's loads. -/
def Obligations.DecoderFollowsTheTransitionTable : Prop :=
  ∀ (m : Config.MaxPayload) (D : Decoder) (b : Byte) (cap : Nat), cap = Config.capOf m →
    (D.phase = .idle → b = Config.startByte → D.write cap b = .ok (true, { D with isOpen := true, total := 1#8 })) ∧
    (D.phase = .idle → b ≠ Config.startByte → D.write cap b = .ok (false, D)) ∧
    (D.phase = .collectingLength → b.toNat ≤ cap →
      D.write cap b = .ok (true, { D with explen := b, total := 2#8 })) ∧
    (D.phase = .collectingLength → cap < b.toNat →
      D.write cap b = .ok (false, { D with explen := b, isOpen := false, err := .invalidLength })) ∧
    (D.phase = .collectingPayload → (D.total.toNat : Int) < (D.explen.toNat : Int) - 1 → D.widx.toNat < cap →
      ∃ D', D.write cap b = .ok (true, D') ∧
        D' = { D with buf := D'.buf, widx := D.widx + 1#8, total := D.total + 1#8 } ∧
        D'.buf.read D.widx.toNat = some b ∧ ∀ i, i ≠ D.widx.toNat → D'.buf.read i = D.buf.read i) ∧
    (D.phase = .collectingPayload → (D.explen.toNat : Int) - 1 ≤ (D.total.toNat : Int) →
      (b ≠ Config.endByte →
        D.write cap b = .ok (false, { D with isOpen := false, total := D.total + 1#8, err := .invalidLength })) ∧
      (b = Config.endByte → D.total.toNat + 1 < 4 →
        D.write cap b = .ok (false, { D with isOpen := false, total := D.total + 1#8, err := .invalidLength })) ∧
      (b = Config.endByte → 4 ≤ D.total.toNat + 1 → D.total.toNat < cap →
        ∀ payload received, loadRange cap D.buf 0 (D.total.toNat - 3) = .ok payload →
          load cap D.buf (D.total.toNat - 3) = .ok received →
          (crc8Seq 0x00#8 (D.explen :: payload) ≠ received →
            D.write cap b = .ok (false, { D with
              isOpen := false, total := D.total + 1#8, paylen := D.total - 3#8, err := .invalidChecksum })) ∧
          (crc8Seq 0x00#8 (D.explen :: payload) = received →
            D.write cap b = .ok (true, { D with
              isOpen := false, total := D.total + 1#8, paylen := D.total - 3#8, ridx := 0#8 })))) ∧
    (D.phase = .closedOk ∨ D.phase = .closedErr → D.write cap b = .ok (false, D))

/-- R156. -/
def Obligations.DecWriteRunsTheTransition : Prop :=
  ∀ (s : State) (b : Byte), s.dec.Inv s.cap → encode (.decWrite b) = 0x31#8 ++ b ∧
    ∃ a D, s.dec.write s.cap b = .ok (a, D) ∧
      exec (.decWrite b) s = .next { s with dec := D, resp := some (respWord false a 0x00#8) } ∧
      ∀ i, i ≠ s.dec.widx.toNat → D.buf.read i = s.dec.buf.read i

/-- R157, R159 to R162, with R90's codes. -/
def Obligations.DecQueriesAnswerTheRecord : Prop :=
  ∀ s : State,
    (encode .decAvail = 0x3200#16 ∧ encode .decIsopen = 0x3400#16 ∧ encode .decHaserr = 0x3500#16 ∧
      encode .decLasterr = 0x3600#16 ∧ encode .decTotlen = 0x3700#16) ∧
    (s.dec.isOpen = false ∧ s.dec.err = .noError ∧ 0 < s.dec.total.toNat →
      exec .decAvail s = .next { s with resp := some (respWord false true (s.dec.paylen - s.dec.ridx)) }) ∧
    (¬(s.dec.isOpen = false ∧ s.dec.err = .noError ∧ 0 < s.dec.total.toNat) →
      exec .decAvail s = .next { s with resp := some (respWord false true 0x00#8) }) ∧
    exec .decIsopen s =
      .next { s with resp := some (respWord false true (if s.dec.isOpen = true then 0x01#8 else 0x00#8)) } ∧
    exec .decHaserr s =
      .next { s with resp := some (respWord false true (if s.dec.err = .noError then 0x00#8 else 0x01#8)) } ∧
    (s.dec.err = .noError → exec .decLasterr s = .next { s with resp := some (respWord false true 0x00#8) }) ∧
    (s.dec.err = .invalidLength → exec .decLasterr s = .next { s with resp := some (respWord false true 0x01#8) }) ∧
    (s.dec.err = .invalidChecksum → exec .decLasterr s = .next { s with resp := some (respWord false true 0x02#8) }) ∧
    exec .decTotlen s = .next { s with resp := some (respWord false true s.dec.total) }

/-- R158. -/
def Obligations.DecReadConsumesOrAnswersNoData : Prop :=
  ∀ s : State, encode .decRead = 0x3300#16 ∧
    (∀ v, s.dec.isOpen = false → s.dec.err = .noError → 0 < s.dec.total.toNat → s.dec.ridx.toNat < s.dec.paylen.toNat →
      s.dec.ridx.toNat < s.cap → s.dec.buf.read s.dec.ridx.toNat = some v →
      exec .decRead s =
        .next { s with dec := { s.dec with ridx := s.dec.ridx + 1#8 }, resp := some (respWord false true v) }) ∧
    (¬(s.dec.isOpen = false ∧ s.dec.err = .noError ∧ 0 < s.dec.total.toNat ∧ s.dec.ridx.toNat < s.dec.paylen.toNat) →
      exec .decRead s = .next { s with resp := some (respWord false false 0x00#8) })

/-- R41 (a) to (e) as an inductive invariant of the whole machine's step; 'since the last reset' in (c) is said through the input since that reset (log 18). -/
def Obligations.DecoderInvariantIsKept : Prop :=
  ∀ s t : State, s.dec.Inv s.cap → step s = .next t → t.dec.Inv t.cap

/-- R39, R155 (document rule 5), R260. -/
def Obligations.RecordedErrorIsSticky : Prop :=
  (∀ (cap : Nat) (D : Decoder) (xs : List Byte), D.err ≠ .noError → D.feed cap xs = .ok D) ∧
  (∀ (i : Instr) (s t : State), s.dec.err ≠ .noError → exec i s = .next t →
    (i ≠ .decReset → t.dec = s.dec) ∧ (i = .decReset → t.dec.err = .noError))

/-- R155 (document rule 1), R166's first row and its row on bytes after a frame. -/
def Obligations.NoiseAndTrailingBytesAreIgnored : Prop :=
  ∀ (cap : Nat) (D : Decoder) (xs : List Byte),
    (D.phase = .idle → (∀ b ∈ xs, b ≠ Config.startByte) → D.feed cap xs = .ok D) ∧
    (D.phase = .closedOk → D.feed cap xs = .ok D)

/-- R164's last sentence. -/
def Obligations.ChunkingIsIrrelevant : Prop :=
  ∀ (cap : Nat) (D : Decoder) (chunks : List (List Byte)),
    chunks.foldl (fun r c => match r with | .ok D' => D'.feed cap c | .error f => .error f) (.ok D) =
      D.feed cap chunks.flatten

/-- R163. The sentence on the first START byte is the condition on the noise. -/
def Obligations.DecoderAcceptsExactlyFrames : Prop :=
  ∀ (m : Config.MaxPayload) (D : Decoder) (xs p : List Byte) (cap : Nat), cap = Config.capOf m →
    ((∃ D', D.clear.feed cap xs = .ok D' ∧ D'.phase = .closedOk ∧ loadRange cap D'.buf 0 D'.paylen.toNat = .ok p) ↔
      ∃ noise tail L c, xs = noise ++ [Config.startByte, L] ++ p ++ [c, Config.endByte] ++ tail ∧
        (∀ b ∈ noise, b ≠ Config.startByte) ∧ 4 ≤ L.toNat ∧ L.toNat ≤ cap ∧ p.length = L.toNat - 4 ∧
        c = crc8Seq 0x00#8 (L :: p))

/-- R164's round trip (its clause on chunks is ChunkingIsIrrelevant). -/
def Obligations.EncodeThenDecodeGivesThePayload : Prop :=
  ∀ (m : Config.MaxPayload) (D : Decoder) (p : List Byte) (cap : Nat), cap = Config.capOf m → p.length ≤ cap - 4 →
    ∃ D', D.clear.feed cap (frameOf p) = .ok D' ∧ D'.phase = .closedOk ∧ D'.err = .noError ∧
      D'.paylen.toNat = p.length ∧ loadRange cap D'.buf 0 p.length = .ok p

/-- R191, R193, R194; and the effects of R192 and R195, whose corner cases speak of a request. -/
def Obligations.ReqSettersWriteTheirRegister : Prop :=
  ∀ (s : State) (b : Byte),
    (encode (.reqSetAddr b) = 0x40#8 ++ b ∧ encode (.reqSetResplen b) = 0x41#8 ++ b ∧
      encode (.reqSetDelayLo b) = 0x42#8 ++ b ∧ encode (.reqSetDelayHi b) = 0x43#8 ++ b ∧
      encode (.reqSetAttempts b) = 0x44#8 ++ b) ∧
    exec (.reqSetAddr b) s =
      .next { s with req := { s.req with addr := b }, resp := some (respWord false true 0x00#8) } ∧
    exec (.reqSetResplen b) s =
      .next { s with req := { s.req with resplen := b }, resp := some (respWord false true 0x00#8) } ∧
    exec (.reqSetAttempts b) s =
      .next { s with req := { s.req with maxatt := b }, resp := some (respWord false true 0x00#8) } ∧
    (∃ d : Delay, exec (.reqSetDelayLo b) s =
        .next { s with req := { s.req with delay := d }, resp := some (respWord false true 0x00#8) } ∧
      d.extractLsb' 0 8 = b ∧ d.extractLsb' 8 8 = s.req.delay.extractLsb' 8 8) ∧
    (∃ d : Delay, exec (.reqSetDelayHi b) s =
        .next { s with req := { s.req with delay := d }, resp := some (respWord false true 0x00#8) } ∧
      d.extractLsb' 8 8 = b ∧ d.extractLsb' 0 8 = s.req.delay.extractLsb' 0 8)

/-- R196. `trace`, `resp`, `awaiting` and `trigSent` are the model's (logs 5, 9, 10, 15). -/
def Obligations.ReqStartBeginsARequest : Prop :=
  ∀ s : State, encode .reqStart = 0x4500#16 ∧
    exec .reqStart s = .next { s with
      req := { s.req with
        attempt := 0#8, needtrig := true, lasterr := false, status := .noStatus, rxlen := 0#8, rxcur := 0#8
        rdec := { buf := s.req.rdec.buf, widx := 0#8, ridx := 0#8, total := 0#8, explen := 0#8, paylen := 0#8, isOpen := false, err := .noError }
        state := .check, trigSent := 0, awaiting := false }
      resp := none, trace := [] }

/-- R197 and R202's finish_exhausted. -/
def Obligations.CheckStepChoosesOrFinishes : Prop :=
  ∀ s : State, s.Running .check →
    (s.req.attempt.toNat < s.req.maxatt.toNat →
      (s.req.needtrig = true → step s = .next { s with req := { s.req with state := .trig } }) ∧
      (s.req.needtrig = false → step s = .next { s with req := { s.req with state := .wait } })) ∧
    (s.req.maxatt.toNat ≤ s.req.attempt.toNat →
      (s.req.lasterr = true → step s = .next { s with
        req := { s.req with status := .packetError, state := .idle, awaiting := false }
        resp := some (respWord false false 0x03#8) }) ∧
      (s.req.lasterr = false → step s = .next { s with
        req := { s.req with status := .attemptsExhausted, state := .idle, awaiting := false }
        resp := some (respWord false false 0x04#8) }))

/-- R198, however its six events are spread over steps; the four bytes against `encode` of the empty payload (R93). -/
def Obligations.TrigStepSendsTheTriggerFrame : Prop :=
  frameOf [] = [0x02#8, 0x04#8, 0x61#8, 0x04#8] ∧
  ∀ s : State, s.Running .trig → s.req.trigSent = 0 →
    ∃ k, runFrom k s = .next { s with
      req := { s.req with needtrig := false, state := .wait }
      trace := s.trace ++ [.txBegin s.req.addr, .txWrite 0x02#8, .txWrite 0x04#8, .txWrite 0x61#8, .txWrite 0x04#8, .txEnd] }

/-- R199, R208; the answers and the awaiting bit are the model's (logs 4, 5). -/
def Obligations.WaitStepEmitsTheBackoff : Prop :=
  ∀ (s : State) (es : List Event), s.Running .wait →
    es = (if s.req.awaiting = true then s.trace else s.trace ++ [.wait (s.req.delay.toNat * (s.req.attempt.toNat + 1))]) →
    (s.envDone = 0 → step s = .next { s with req := { s.req with awaiting := true }, trace := es }) ∧
    (∀ k, s.envDone = k + 1 →
      step s = .next { s with envDone := k, req := { s.req with awaiting := false, state := .poll }, trace := es })

/-- R200; the answers and the awaiting bit are the model's (logs 4, 5). -/
def Obligations.PollStepTakesTheAnswer : Prop :=
  ∀ (s : State) (es : List Event), s.Running .poll →
    es = (if s.req.awaiting = true then s.trace else s.trace ++ [.poll s.req.addr s.req.resplen]) →
    (s.envPolls = [] → step s = .next { s with req := { s.req with awaiting := true }, trace := es }) ∧
    (∀ rest, s.envPolls = [] :: rest → step s = .next { s with
      envPolls := rest, req := { s.req with status := .peerNotFound, state := .idle, awaiting := false }
      resp := some (respWord false false 0x02#8), trace := es }) ∧
    (∀ b bs rest D, s.envPolls = (b :: bs) :: rest → s.req.rdec.feed s.cap (b :: bs) = .ok D → step s = .next { s with
      envPolls := rest, req := { s.req with rdec := D, awaiting := false, state := .eval }, trace := es })

/-- R201, branch by branch. -/
def Obligations.EvalStepDecides : Prop :=
  ∀ s : State, s.Running .eval →
    (∀ p, s.req.rdec.doneOk = true → s.req.rdec.paylen.toNat ≤ s.cap - 4 →
      loadRange s.cap s.req.rdec.buf 0 s.req.rdec.paylen.toNat = .ok p →
      ∃ t, step s = .next t ∧
        t = { s with
          req := { s.req with rxbuf := t.req.rxbuf, rxlen := s.req.rdec.paylen, rxcur := 0#8, status := .packetRead, state := .idle, awaiting := false }
          resp := some (respWord false true 0x01#8) } ∧
        loadRange (s.cap - 4) t.req.rxbuf 0 s.req.rdec.paylen.toNat = .ok p ∧
        ∀ i, s.req.rdec.paylen.toNat ≤ i → t.req.rxbuf.read i = s.req.rxbuf.read i) ∧
    (s.req.rdec.err ≠ .noError → step s = .next { s with
      req := { s.req with
        rdec := s.req.rdec.clear, needtrig := true, lasterr := true, attempt := s.req.attempt + 1#8, state := .check } }) ∧
    (s.req.rdec.doneOk = false → s.req.rdec.err = .noError → step s = .next { s with
      req := { s.req with lasterr := false, attempt := s.req.attempt + 1#8, state := .check } })

/-- R204 to R206, with R90's codes. -/
def Obligations.ReqReadOutCommandsAnswer : Prop :=
  ∀ s : State,
    (encode .reqStatus = 0x4600#16 ∧ encode .reqAvail = 0x4700#16 ∧ encode .reqRead = 0x4800#16) ∧
    exec .reqStatus s = .next { s with resp := some (respWord false true s.req.status.code) } ∧
    (ReqStatus.noStatus.code = 0x00#8 ∧ ReqStatus.packetRead.code = 0x01#8 ∧ ReqStatus.peerNotFound.code = 0x02#8 ∧
      ReqStatus.packetError.code = 0x03#8 ∧ ReqStatus.attemptsExhausted.code = 0x04#8) ∧
    exec .reqAvail s = .next { s with resp := some (respWord false true (s.req.rxlen - s.req.rxcur)) } ∧
    (∀ v, s.req.rxcur.toNat < s.req.rxlen.toNat → s.req.rxcur.toNat < s.cap - 4 →
      s.req.rxbuf.read s.req.rxcur.toNat = some v →
      exec .reqRead s =
        .next { s with req := { s.req with rxcur := s.req.rxcur + 1#8 }, resp := some (respWord false true v) }) ∧
    (s.req.rxlen.toNat ≤ s.req.rxcur.toNat →
      exec .reqRead s = .next { s with resp := some (respWord false false 0x00#8) })

/-- R45: all four hold their value across requests. -/
def Obligations.ConfigurationHoldsItsValue : Prop :=
  ∀ s t : State, s.resetPin = false → step s = .next t →
    (t.req.addr ≠ s.req.addr → s.req.state = .idle ∧ ∃ (b : Byte) (rest : List CmdWord), s.hostCmds = (0x40#8 ++ b) :: rest ∧ t.req.addr = b) ∧
    (t.req.resplen ≠ s.req.resplen → s.req.state = .idle ∧ ∃ (b : Byte) (rest : List CmdWord), s.hostCmds = (0x41#8 ++ b) :: rest ∧ t.req.resplen = b) ∧
    (t.req.maxatt ≠ s.req.maxatt → s.req.state = .idle ∧ ∃ (b : Byte) (rest : List CmdWord), s.hostCmds = (0x44#8 ++ b) :: rest ∧ t.req.maxatt = b) ∧
    (t.req.delay ≠ s.req.delay → s.req.state = .idle ∧
      ∃ (b : Byte) (rest : List CmdWord), s.hostCmds = (0x42#8 ++ b) :: rest ∨ s.hostCmds = (0x43#8 ++ b) :: rest)

/-- R52, and R41 for `rdec` (log 18), as an inductive invariant; R52's first clause is stated of a running request here (log 12). -/
def Obligations.RequesterInvariantIsKept : Prop :=
  ∀ s t : State, s.req.Inv s.cap → step s = .next t → t.req.Inv t.cap

/-- R203 against R196 to R202; with every event answered a request finishes (R210 (f), R295). -/
def Obligations.RequestMatchesTheBigStep : Prop :=
  ∀ (s : State) (rest : List CmdWord), s.Inv → s.Ready → s.hostCmds = 0x4500#16 :: rest →
    s.req.maxatt.toNat ≤ s.envDone → s.req.maxatt.toNat ≤ s.envPolls.length →
    ∃ k t r, runFrom k s = .next t ∧
      request s.cap s.req.addr s.req.resplen s.req.delay s.req.maxatt.toNat s.req.rdec s.envPolls = .ok (some r) ∧
      t.req.state = .idle ∧ t.req.status = r.status ∧
      t.resp = some (respWord false (decide (r.status = .packetRead)) r.status.code) ∧
      t.trace = r.events ∧ t.req.rxlen.toNat = r.payload.length ∧ t.req.rxcur = 0#8 ∧
      loadRange (s.cap - 4) t.req.rxbuf 0 r.payload.length = .ok r.payload ∧
      t.req.attempt.toNat = r.attempt ∧ t.req.needtrig = r.needtrig ∧ t.req.lasterr = r.lasterr ∧ t.req.rdec = r.rdec ∧
      t.hostCmds = rest ∧ t.crcAcc = s.crcAcc ∧ t.enc = s.enc ∧ t.dec = s.dec

/-- R210 (a), (b), (c), of R203's function. -/
def Obligations.RequestOutcomesByAnswers : Prop :=
  ∀ (cap : Nat) (addr resplen : Byte) (d : Delay) (m : Nat) (D : Decoder) (bads rest : List (List Byte)) (good p : List Byte),
    (∀ a ∈ bads, a ≠ [] ∧ ∀ D0 : Decoder, ∃ D1, D0.clear.feed cap a = .ok D1 ∧ D1.err ≠ .noError) →
    (bads.length < m → good ≠ [] →
      (∀ D0 : Decoder, ∃ D1, D0.clear.feed cap good = .ok D1 ∧ D1.doneOk = true ∧
        loadRange cap D1.buf 0 D1.paylen.toNat = .ok p) →
      ∃ r, request cap addr resplen d m D (bads ++ good :: rest) = .ok (some r) ∧
        r.status = .packetRead ∧ r.payload = p ∧ r.attempt = bads.length) ∧
    (0 < m → bads.length = m →
      ∃ r, request cap addr resplen d m D (bads ++ rest) = .ok (some r) ∧
        r.status = .packetError ∧ r.attempt = m ∧ r.payload = [] ∧ pollCount r.events = m) ∧
    (0 < m →
      ∃ r, request cap addr resplen d m D ([] :: rest) = .ok (some r) ∧
        r.status = .peerNotFound ∧ r.attempt = 0 ∧ r.payload = [] ∧
        r.events = triggerEvents addr ++ [.wait (d.toNat * 1), .poll addr resplen])

/-- R210 (d) and R288's sum, of R203's function. -/
def Obligations.RequestPollsAndWaitsAreBounded : Prop :=
  ∀ (cap : Nat) (addr resplen : Byte) (d : Delay) (m : Nat) (D : Decoder) (answers : List (List Byte)) (r : RequestResult),
    request cap addr resplen d m D answers = .ok (some r) →
    r.status ≠ .noStatus ∧ pollCount r.events ≤ m ∧
    (r.status = .packetError ∨ r.status = .attemptsExhausted →
      pollCount r.events = m ∧ 2 * waitSum r.events = d.toNat * m * (m + 1))

/-- R208, R288 (D40), R280; the awaiting bit is the model's (log 5). -/
def Obligations.UnansweredRequestStaysStuck : Prop :=
  ∀ s : State, s.resetPin = false → s.req.awaiting = true →
    (s.req.state = .wait ∧ s.envDone = 0) ∨ (s.req.state = .poll ∧ s.envPolls = []) →
    (∀ k, runFrom k s = .next s) ∧
    ∃ t, step { s with resetPin := true } = .next t ∧ t.AtReset ∧ t.Ready

/-- R60's sizes and R62's bounds, with the canonical form of the model's memory (log 6). -/
def Obligations.BuffersStaySound : Prop :=
  ∀ s t : State, s.BuffersSound → step s = .next t → t.BuffersSound

/-- R62 and R250 for every state that meets the invariants R30, R41, R52. -/
def Obligations.MachineNeverStops : Prop :=
  ∀ s : State, s.Inv → ∃ t, step s = .next t ∧ t.Inv

/-- The invariants hold at reset. -/
def Obligations.ResetStateMeetsTheInvariant : Prop :=
  State.reset.Inv ∧ ∀ p : Config.MaxPayload, (State.resetWith p).Inv

/-- R198's 'an implementation may spread them over time' and R280's reset 'between TxBegin and TxEnd'; one event a step is the model's choice (log 15). -/
def Obligations.ResetMayFallInsideATrigger : Prop :=
  ∀ s : State, s.Running .trig →
    (∃ e, [Event.txBegin s.req.addr, .txWrite 0x02#8, .txWrite 0x04#8, .txWrite 0x61#8, .txWrite 0x04#8, .txEnd][s.req.trigSent.val]? = some e ∧
      (s.req.trigSent.val < 5 → step s = .next { s with
        req := { s.req with trigSent := s.req.trigSent + 1 }, trace := s.trace ++ [e] }) ∧
      (s.req.trigSent.val = 5 → step s = .next { s with
        req := { s.req with trigSent := 0, needtrig := false, state := .wait }, trace := s.trace ++ [e] })) ∧
    ∃ t, step { s with resetPin := true } = .next t ∧ t.AtReset ∧ t.Ready ∧ t.resp = none ∧ t.trace = s.trace

/-- R52's first clause of every state, with the one step that R195 and R46 make an exception of (log 12). -/
def Obligations.AttemptsStayWithinTheMaximum : Prop :=
  (∀ p : Config.MaxPayload, (State.resetWith p).req.attempt.toNat ≤ (State.resetWith p).req.maxatt.toNat) ∧
  ∀ s t : State, s.req.Inv s.cap → s.req.attempt.toNat ≤ s.req.maxatt.toNat → step s = .next t →
    t.req.attempt.toNat ≤ t.req.maxatt.toNat ∨
    (s.resetPin = false ∧ s.req.state = .idle ∧
      ∃ (b : Byte) (rest : List CmdWord), s.hostCmds = (0x44#8 ++ b) :: rest ∧ b.toNat < s.req.attempt.toNat ∧
        t.req.maxatt = b ∧ t.req.attempt = s.req.attempt)
end

