-- ==== Sys2Proof/Laws/Memory.lean ====
section
/-! SUPPORT. What the buffer operations do: a read after a write, the canonical form and the bounds kept by every operation, and one lemma per access that says once everything it can do. -/

namespace Sys2Proof.Machine

@[simp] theorem Memory.read_nil (i : Nat) : Memory.read [] i = none := rfl

@[simp] theorem Memory.read_write_same (m : Memory) (i : Nat) (v : Byte) : (m.write i v).read i = some v := by
  induction m with
  | nil => simp [Memory.write, Memory.read]
  | cons c rest ih =>
    obtain ⟨a, w⟩ := c
    simp only [Memory.write]
    split
    · simp [Memory.read]
    · split
      · simp [Memory.read]
      · rename_i h1 h2
        have : a ≠ i := fun h => h2 h.symm
        simp [Memory.read, this, ih]

theorem Memory.read_write_other (m : Memory) {i j : Nat} (v : Byte) (h : j ≠ i) : (m.write i v).read j = m.read j := by
  induction m with
  | nil => simp [Memory.write, Memory.read, h.symm]
  | cons c rest ih =>
    obtain ⟨a, w⟩ := c
    simp only [Memory.write]
    split
    · simp [Memory.read, h.symm]
    · split
      · rename_i h1 h2
        subst h2
        simp [Memory.read, h.symm]
      · simp [Memory.read, ih]

theorem Memory.read_write (m : Memory) (i j : Nat) (v : Byte) :
    (m.write i v).read j = if j = i then some v else m.read j := by
  split
  · rename_i h; subst h; simp
  · rename_i h; exact Memory.read_write_other m v h

theorem Memory.isSome_read_write (m : Memory) (i j : Nat) (v : Byte) (h : (m.read j).isSome = true) :
    ((m.write i v).read j).isSome = true := by
  rw [Memory.read_write]; split <;> simp [h]

theorem Memory.mem_write (m : Memory) (i : Nat) (v : Byte) (c : Host.Cell) (h : c ∈ m.write i v) :
    c = (i, v) ∨ c ∈ m := by
  induction m with
  | nil => simpa [Memory.write] using h
  | cons d rest ih =>
    obtain ⟨a, w⟩ := d
    simp only [Memory.write] at h
    split at h
    · simpa using h
    · split at h
      · simp only [List.mem_cons] at h ⊢
        rcases h with h | h
        · exact .inl h
        · exact .inr (.inr h)
      · simp only [List.mem_cons] at h ⊢
        rcases h with h | h
        · exact .inr (.inl h)
        · rcases ih h with h | h
          · exact .inl h
          · exact .inr (.inr h)

/-- A write keeps the canonical form. -/
theorem Memory.wf_write (m : Memory) (i : Nat) (v : Byte) (h : m.wf = true) : (m.write i v).wf = true := by
  induction m with
  | nil => simp [Memory.write, Memory.wf]
  | cons c rest ih =>
    obtain ⟨a, w⟩ := c
    simp only [Memory.wf, Bool.and_eq_true, List.all_eq_true, decide_eq_true_eq] at h
    simp only [Memory.write]
    split
    · rename_i h1
      simp only [Memory.wf, Bool.and_eq_true, List.all_eq_true, decide_eq_true_eq, List.mem_cons]
      refine ⟨fun x hx => ?_, h.1, h.2⟩
      rcases hx with rfl | hx
      · exact h1
      · exact lt_trans h1 (h.1 x hx)
    · split
      · rename_i h1 h2
        subst h2
        simp only [Memory.wf, Bool.and_eq_true, List.all_eq_true, decide_eq_true_eq]
        exact h
      · rename_i h1 h2
        simp only [Memory.wf, Bool.and_eq_true, List.all_eq_true, decide_eq_true_eq]
        refine ⟨fun x hx => ?_, ih h.2⟩
        rcases Memory.mem_write rest i v x hx with rfl | hx
        · show a < i; omega
        · exact h.1 x hx

/-- A write inside the buffer keeps everything inside it. -/
theorem Memory.within_write (size : Nat) (m : Memory) (i : Nat) (v : Byte) (hi : i < size)
    (h : m.within size = true) : (m.write i v).within size = true := by
  simp only [Memory.within, List.all_eq_true, decide_eq_true_eq] at h ⊢
  intro c hc
  rcases Memory.mem_write m i v c hc with rfl | hc
  · exact hi
  · exact h c hc

theorem Memory.Sound.write {size : Nat} {m : Memory} (h : m.Sound size) {i : Nat} (hi : i < size) (v : Byte) :
    (m.write i v).Sound size :=
  ⟨Memory.wf_write m i v h.1, Memory.within_write size m i v hi h.2⟩

theorem Memory.Sound.nil (size : Nat) : Memory.Sound size [] := ⟨rfl, rfl⟩

/-! ### load and store -/

/-- A load answers the byte at an index inside the buffer that something has written. -/
theorem load_eq_ok (size : Nat) (m : Memory) (i : Nat) (v : Byte) :
    load size m i = .ok v ↔ i < size ∧ m.read i = some v := by
  unfold load
  split
  · cases m.read i <;> simp_all
  · simp_all

theorem load_of_read {size : Nat} {m : Memory} {i : Nat} {v : Byte} (hi : i < size) (h : m.read i = some v) :
    load size m i = .ok v := (load_eq_ok size m i v).2 ⟨hi, h⟩

/-- A store answers the written buffer, at an index inside it. -/
theorem store_eq_ok (size : Nat) (m m' : Memory) (i : Nat) (v : Byte) :
    store size m i v = .ok m' ↔ i < size ∧ m' = m.write i v := by
  unfold store
  split
  · simp_all [eq_comm]
  · simp_all

theorem store_of_lt {size : Nat} (m : Memory) {i : Nat} (v : Byte) (hi : i < size) :
    store size m i v = .ok (m.write i v) := (store_eq_ok size m _ i v).2 ⟨hi, rfl⟩

/-- A range load answers the list of the bytes at its indices, each inside the buffer and written. -/
theorem loadRange_eq_ok (size : Nat) (m : Memory) (n lo : Nat) (bs : List Byte) :
    loadRange size m lo n = .ok bs ↔
      bs.length = n ∧ ∀ k, k < n → lo + k < size ∧ m.read (lo + k) = bs[k]? := by
  induction n generalizing lo bs with
  | zero => cases bs <;> simp [loadRange]
  | succ n ih =>
    constructor
    · intro h
      simp only [loadRange] at h
      split at h
      · cases h
      · rename_i b hb
        split at h
        · cases h
        · rename_i bs' hbs
          obtain rfl : b :: bs' = bs := by simpa using h
          rw [ih] at hbs
          rw [load_eq_ok] at hb
          refine ⟨by simp [hbs.1], fun k hk => ?_⟩
          cases k with
          | zero => simpa using hb
          | succ k =>
            have := hbs.2 k (by omega)
            rw [show lo + (k + 1) = lo + 1 + k by omega]
            simpa using this
    · rintro ⟨hlen, h⟩
      cases bs with
      | nil => simp at hlen
      | cons b bs =>
        have h0 := h 0 (by omega)
        have hload : load size m lo = .ok b := load_of_read (by simpa using h0.1) (by simpa using h0.2)
        have hrest : loadRange size m (lo + 1) n = .ok bs := by
          rw [ih]
          refine ⟨by simpa using hlen, fun k hk => ?_⟩
          have := h (k + 1) (by omega)
          rw [show lo + (k + 1) = lo + 1 + k by omega] at this
          simpa using this
        simp [loadRange, hload, hrest]

/-- A range whose indices are inside the buffer and written can be loaded. -/
theorem loadRange_exists (size : Nat) (m : Memory) (n lo : Nat) (hb : lo + n ≤ size)
    (h : ∀ k, k < n → (m.read (lo + k)).isSome = true) : ∃ bs, loadRange size m lo n = .ok bs ∧ bs.length = n := by
  induction n generalizing lo with
  | zero => exact ⟨[], rfl, rfl⟩
  | succ n ih =>
    obtain ⟨v, hv⟩ := Option.isSome_iff_exists.1 (by simpa using h 0 (by omega))
    obtain ⟨bs, hbs, hl⟩ := ih (lo + 1) (by omega) (fun k hk => by
      have := h (k + 1) (by omega)
      rwa [show lo + (k + 1) = lo + 1 + k by omega] at this)
    refine ⟨v :: bs, ?_, by simp [hl]⟩
    simp [loadRange, load_of_read (show lo < size by omega) hv, hbs]

/-- A range load looks at its own indices only. -/
theorem loadRange_congr (size : Nat) (m m' : Memory) (lo n : Nat)
    (h : ∀ k, k < n → m'.read (lo + k) = m.read (lo + k)) : loadRange size m' lo n = loadRange size m lo n := by
  induction n generalizing lo with
  | zero => rfl
  | succ n ih =>
    have h0 : load size m' lo = load size m lo := by
      unfold load
      have := h 0 (by omega)
      simp only [Nat.add_zero] at this
      rw [this]
    have hr : loadRange size m' (lo + 1) n = loadRange size m (lo + 1) n := ih (lo + 1) (fun k hk => by
      have := h (k + 1) (by omega)
      rwa [show lo + (k + 1) = lo + 1 + k by omega] at this)
    simp only [loadRange, h0, hr]

/-- Everything a list store can do: it fits the buffer, the listed bytes stand where they were stored, every other index reads as
before, and the canonical form and the bounds are kept. -/
theorem storeList_ok (size : Nat) (bs : List Byte) (m m' : Memory) (lo : Nat) (h : storeList size m lo bs = .ok m') :
    (bs = [] ∨ lo + bs.length ≤ size) ∧
    (∀ i, m'.read i = if lo ≤ i ∧ i < lo + bs.length then bs[i - lo]? else m.read i) ∧
    (m.Sound size → m'.Sound size) := by
  induction bs generalizing m lo with
  | nil =>
    obtain rfl : m = m' := by simpa [storeList] using h
    refine ⟨.inl rfl, fun i => ?_, id⟩
    rw [if_neg (by simp)]
  | cons b bs ih =>
    simp only [storeList] at h
    split at h
    · cases h
    · rename_i m1 hm1
      rw [store_eq_ok] at hm1
      obtain ⟨hlo, rfl⟩ := hm1
      obtain ⟨hfit, hread, hsound⟩ := ih _ _ h
      refine ⟨.inr ?_, fun i => ?_, fun hs => hsound (hs.write hlo b)⟩
      · rcases hfit with rfl | hfit
        · simp; omega
        · simp; omega
      · rw [hread]
        by_cases h1 : i = lo
        · subst h1
          rw [if_neg (by omega), if_pos (by simp)]
          simp
        · by_cases h2 : lo + 1 ≤ i ∧ i < lo + 1 + bs.length
          · rw [if_pos h2, if_pos (by simp; omega)]
            obtain ⟨k, rfl⟩ : ∃ k, i = lo + 1 + k := ⟨i - (lo + 1), by omega⟩
            rw [show lo + 1 + k - lo = k + 1 by omega, show lo + 1 + k - (lo + 1) = k by omega]
            simp
          · rw [if_neg h2, if_neg (by simp; omega), Memory.read_write_other _ _ h1]

theorem storeList_exists (size : Nat) (bs : List Byte) (m : Memory) (lo : Nat) (h : lo + bs.length ≤ size) :
    ∃ m', storeList size m lo bs = .ok m' := by
  induction bs generalizing m lo with
  | nil => exact ⟨m, rfl⟩
  | cons b bs ih =>
    simp only [List.length_cons] at h
    obtain ⟨m', hm'⟩ := ih (m.write lo b) (lo + 1) (by omega)
    exact ⟨m', by simp [storeList, store_of_lt m b (show lo < size by omega), hm']⟩

/-- Everything a post-increment load can do (R61). -/
theorem loadPostInc_eq_ok (size : Nat) (m : Memory) (c v c' : Byte) :
    loadPostInc size m c = .ok (v, c') ↔ c.toNat < size ∧ m.read c.toNat = some v ∧ c' = bump c := by
  unfold loadPostInc
  constructor
  · intro h
    split at h
    · cases h
    · rename_i w hw
      rw [load_eq_ok] at hw
      simp only [Except.ok.injEq, Prod.mk.injEq] at h
      exact ⟨hw.1, h.1 ▸ hw.2, h.2.symm⟩
  · rintro ⟨h1, h2, rfl⟩
    rw [load_of_read h1 h2]

/-- Everything a post-increment store can do (R61). -/
theorem storePostInc_eq_ok (size : Nat) (m m' : Memory) (c b c' : Byte) :
    storePostInc size m c b = .ok (m', c') ↔ c.toNat < size ∧ m' = m.write c.toNat b ∧ c' = bump c := by
  unfold storePostInc
  constructor
  · intro h
    split at h
    · cases h
    · rename_i w hw
      rw [store_eq_ok] at hw
      simp only [Except.ok.injEq, Prod.mk.injEq] at h
      exact ⟨hw.1, h.1 ▸ hw.2, h.2.symm⟩
  · rintro ⟨h1, rfl, rfl⟩
    rw [store_of_lt m b h1]

/-! ### numerals and capacities -/

theorem toNat_toByte (n : Nat) : (toByte n).toNat = n % 256 := by simp [toByte]

theorem toNat_toByte_of_lt {n : Nat} (h : n < 256) : (toByte n).toNat = n := by
  rw [toNat_toByte]; exact Nat.mod_eq_of_lt h

/-- An 8-bit register advanced by one over the integers and stored (R13). -/
theorem toByte_succ (c : Byte) : toByte (c.toNat + 1) = c + 1#8 := by
  apply BitVec.eq_of_toNat_eq; simp [toByte]

theorem toByte_add_two (c : Byte) : toByte (c.toNat + 2) = c + 2#8 := by
  apply BitVec.eq_of_toNat_eq; simp [toByte]

theorem bump_eq (c : Byte) : bump c = c + 1#8 := toByte_succ c

theorem toNat_bump_of_lt {c : Byte} (h : c.toNat < 255) : (bump c).toNat = c.toNat + 1 :=
  toNat_toByte_of_lt (by omega)

theorem State.cap_bounds (s : State) : 4 ≤ s.cap ∧ s.cap ≤ 255 := by
  have := s.maxPayload.isLt
  constructor <;> simp only [State.cap, Config.capOf, Config.minCap] <;> omega

/-- The buffers of the state after reset are in canonical form. -/
theorem State.reset_memory_wf :
    State.reset.enc.buf.wf = true ∧ State.reset.dec.buf.wf = true ∧ State.reset.req.rdec.buf.wf = true ∧
    State.reset.req.rxbuf.wf = true := ⟨rfl, rfl, rfl, rfl⟩

end Sys2Proof.Machine
end

