-- ==== Sys2Proof/Laws/Decoder.lean ====
section
/-! SUPPORT. What the decoder's transition function can do, said once: the inversion of `dec_write` (43_decoder.md R155), of its checksum test, and of `feed`; what the input since the last reset says of a record (R41 (c)); and the same for the encoder's operations. -/

namespace Sys2Proof.Machine

@[simp] theorem crc8Seq_nil (a : Byte) : crc8Seq a [] = a := rfl
theorem crc8Seq_cons (a b : Byte) (xs : List Byte) : crc8Seq a (b :: xs) = crc8Seq (crc8Step a b) xs := rfl

@[simp] theorem Decoder.hasErr_eq_false (D : Decoder) : D.hasErr = false ↔ D.err = .noError := by simp [Decoder.hasErr]
@[simp] theorem Decoder.hasErr_eq_true (D : Decoder) : D.hasErr = true ↔ D.err ≠ .noError := by simp [Decoder.hasErr]

theorem Decoder.doneOk_eq_true (D : Decoder) :
    D.doneOk = true ↔ D.isOpen = false ∧ D.err = .noError ∧ 0 < D.total.toNat := by
  simp [Decoder.doneOk, Decoder.hasErr, and_assoc]

theorem Decoder.beforeTerminal_eq_true (D : Decoder) :
    D.beforeTerminal = true ↔ D.total.toNat + 1 < D.explen.toNat := by
  simp only [Decoder.beforeTerminal, decide_eq_true_eq]; omega

/-- Everything the checksum test can do (R155, document rule 4). -/
theorem Decoder.verify_eq_ok (cap : Nat) (D D' : Decoder) (a : Bool) :
    D.verify cap = .ok (a, D') ↔
      ∃ payload received,
        loadRange cap D.buf 0 (D.total.toNat - 4) = .ok payload ∧ load cap D.buf (D.total.toNat - 4) = .ok received ∧
        ((crc8Seq 0x00#8 (D.explen :: payload) = received ∧ a = true ∧
            D' = { D with paylen := toByte (D.total.toNat - 4), ridx := 0#8 }) ∨
         (crc8Seq 0x00#8 (D.explen :: payload) ≠ received ∧ a = false ∧
            D' = { D with paylen := toByte (D.total.toNat - 4), isOpen := false, err := .invalidChecksum })) := by
  unfold Decoder.verify
  dsimp only
  cases h1 : loadRange cap D.buf 0 (D.total.toNat - 4) with
  | error e => simp
  | ok payload =>
    cases h2 : load cap D.buf (D.total.toNat - 4) with
    | error e => simp
    | ok received =>
      by_cases h : crc8Seq 0x00#8 (D.explen :: payload) = received
      · simp only [h, if_true, Except.ok.injEq, Prod.mk.injEq]
        constructor
        · rintro ⟨rfl, rfl⟩
          exact ⟨payload, received, rfl, rfl, .inl ⟨h, rfl, rfl⟩⟩
        · rintro ⟨p, r, rfl, rfl, ⟨-, rfl, rfl⟩ | ⟨h', -, -⟩⟩
          · exact ⟨rfl, rfl⟩
          · exact absurd h h'
      · simp only [h, if_false, Except.ok.injEq, Prod.mk.injEq, Decoder.recordError]
        constructor
        · rintro ⟨rfl, rfl⟩
          exact ⟨payload, received, rfl, rfl, .inr ⟨h, rfl, rfl⟩⟩
        · rintro ⟨p, r, rfl, rfl, ⟨h', -, -⟩ | ⟨-, rfl, rfl⟩⟩
          · exact absurd h' h
          · exact ⟨rfl, rfl⟩

/-- Everything one input byte can do to a record (R155): if `dec_write` answers, one of these cases holds. -/
theorem Decoder.write_cases {cap : Nat} {D D' : Decoder} {b : Byte} {a : Bool} (h : D.write cap b = .ok (a, D')) :
    (D.err ≠ .noError ∧ a = false ∧ D' = D) ∨
    (D.err = .noError ∧ D.isOpen = false ∧ D.total.toNat = 0 ∧ b = Config.startByte ∧ a = true ∧
      D' = { D with isOpen := true, total := 1#8 }) ∨
    (D.err = .noError ∧ D.isOpen = false ∧ ¬(D.total.toNat = 0 ∧ b = Config.startByte) ∧ a = false ∧ D' = D) ∨
    (D.err = .noError ∧ D.isOpen = true ∧ D.total.toNat = 1 ∧ cap < b.toNat ∧ a = false ∧
      D' = { D with explen := b, isOpen := false, err := .invalidLength }) ∨
    (D.err = .noError ∧ D.isOpen = true ∧ D.total.toNat = 1 ∧ b.toNat ≤ cap ∧ a = true ∧
      D' = { D with explen := b, total := 2#8 }) ∨
    (D.err = .noError ∧ D.isOpen = true ∧ D.total.toNat ≠ 1 ∧ D.total.toNat + 1 < D.explen.toNat ∧ D.widx.toNat < cap ∧
      a = true ∧
      D' = { D with buf := D.buf.write D.widx.toNat b, widx := bump D.widx, total := toByte (D.total.toNat + 1) }) ∨
    (D.err = .noError ∧ D.isOpen = true ∧ D.total.toNat ≠ 1 ∧ D.explen.toNat ≤ D.total.toNat + 1 ∧
      (b ≠ Config.endByte ∨ D.total.toNat + 1 < 4) ∧ a = false ∧
      D' = { D with isOpen := false, total := toByte (D.total.toNat + 1), err := .invalidLength }) ∨
    (D.err = .noError ∧ D.isOpen = true ∧ D.total.toNat ≠ 1 ∧ D.explen.toNat ≤ D.total.toNat + 1 ∧
      b = Config.endByte ∧ 4 ≤ D.total.toNat + 1 ∧
      ({ D with isOpen := false, total := toByte (D.total.toNat + 1) } : Decoder).verify cap = .ok (a, D')) := by
  unfold Decoder.write at h
  by_cases herr : D.err = .noError
  · have hE : D.hasErr = false := by simpa using herr
    rw [hE] at h
    simp only [Bool.false_eq_true, if_false] at h
    rcases Bool.eq_false_or_eq_true D.isOpen with hop | hop
    case inr =>
      rw [if_pos hop] at h
      split at h
      · rename_i hc
        simp only [Except.ok.injEq, Prod.mk.injEq] at h
        exact .inr (.inl ⟨herr, hop, hc.1, hc.2, h.1.symm, h.2.symm⟩)
      · rename_i hc
        simp only [Except.ok.injEq, Prod.mk.injEq] at h
        exact .inr (.inr (.inl ⟨herr, hop, hc, h.1.symm, h.2.symm⟩))
    case inl =>
      rw [if_neg (by simp [hop])] at h
      split at h
      · rename_i h1
        unfold Decoder.takeLength at h
        split at h
        · rename_i h2
          simp only [Except.ok.injEq, Prod.mk.injEq, Decoder.recordError] at h
          exact .inr (.inr (.inr (.inl ⟨herr, hop, h1, h2, h.1.symm, h.2.symm⟩)))
        · rename_i h2
          simp only [Except.ok.injEq, Prod.mk.injEq] at h
          exact .inr (.inr (.inr (.inr (.inl ⟨herr, hop, h1, by omega, h.1.symm, h.2.symm⟩))))
      · rename_i h1
        split at h
        · rename_i h2
          rw [Decoder.beforeTerminal_eq_true] at h2
          unfold Decoder.takePayload at h
          split at h
          · cases h
          · rename_i m w hm
            rw [storePostInc_eq_ok] at hm
            obtain ⟨hw, rfl, rfl⟩ := hm
            simp only [Except.ok.injEq, Prod.mk.injEq] at h
            exact .inr (.inr (.inr (.inr (.inr (.inl ⟨herr, hop, h1, h2, hw, h.1.symm, h.2.symm⟩)))))
        · rename_i h2
          rw [Decoder.beforeTerminal_eq_true] at h2
          unfold Decoder.takeTerminal at h
          split at h
          · rename_i hb
            simp only [Except.ok.injEq, Prod.mk.injEq, Decoder.recordError] at h
            exact .inr (.inr (.inr (.inr (.inr (.inr (.inl ⟨herr, hop, h1, by omega, .inl hb, h.1.symm, h.2.symm⟩))))))
          · rename_i hb
            split at h
            · rename_i h4
              simp only [Except.ok.injEq, Prod.mk.injEq, Decoder.recordError] at h
              exact .inr (.inr (.inr (.inr (.inr (.inr (.inl
                ⟨herr, hop, h1, by omega, .inr h4, h.1.symm, h.2.symm⟩))))))
            · rename_i h4
              exact .inr (.inr (.inr (.inr (.inr (.inr (.inr
                ⟨herr, hop, h1, by omega, by simpa using hb, by omega, h⟩))))))
  · have hE : D.hasErr = true := by simpa using herr
    rw [hE] at h
    simp only [if_true, Except.ok.injEq, Prod.mk.injEq] at h
    exact .inl ⟨herr, h.1.symm, h.2.symm⟩

@[simp] theorem Decoder.feed_nil (cap : Nat) (D : Decoder) : D.feed cap [] = .ok D := rfl

/-- Feeding a first byte and then the rest. -/
theorem Decoder.feed_cons_eq_ok (cap : Nat) (D D' : Decoder) (b : Byte) (xs : List Byte) :
    D.feed cap (b :: xs) = .ok D' ↔ ∃ a D1, D.write cap b = .ok (a, D1) ∧ D1.feed cap xs = .ok D' := by
  simp only [Decoder.feed]
  cases h : D.write cap b with
  | error e => simp
  | ok r => obtain ⟨a, D1⟩ := r; simp

/-- Feeding one more byte at the end. -/
theorem Decoder.feed_snoc_eq_ok (cap : Nat) (D D' : Decoder) (b : Byte) (xs : List Byte) :
    D.feed cap (xs ++ [b]) = .ok D' ↔ ∃ a D1, D.feed cap xs = .ok D1 ∧ D1.write cap b = .ok (a, D') := by
  induction xs generalizing D with
  | nil => simp [Decoder.feed_cons_eq_ok]
  | cons c xs ih =>
    simp only [List.cons_append, Decoder.feed_cons_eq_ok, ih]
    constructor
    · rintro ⟨a, D1, h1, a2, D2, h2, h3⟩
      exact ⟨a2, D2, ⟨a, D1, h1, h2⟩, h3⟩
    · rintro ⟨a2, D2, ⟨a, D1, h1, h2⟩, h3⟩
      exact ⟨a, D1, h1, a2, D2, h2, h3⟩

/-- An input byte does the same whatever the read cursor is. -/
theorem Decoder.write_ridx {cap : Nat} {D D' : Decoder} {b : Byte} {a : Bool} (h : D.write cap b = .ok (a, D')) :
    ({ D with ridx := 0#8 } : Decoder).write cap b = .ok (a, { D' with ridx := 0#8 }) := by
  rcases Decoder.write_cases h with ⟨he, rfl, rfl⟩ | ⟨he, ho, ht, hb, rfl, rfl⟩ | ⟨he, ho, hn, rfl, rfl⟩ |
    ⟨he, ho, ht, hb, rfl, rfl⟩ | ⟨he, ho, ht, hb, rfl, rfl⟩ | ⟨he, ho, ht, hlt, hwi, rfl, rfl⟩ |
    ⟨he, ho, ht, hlt, hb, rfl, rfl⟩ | ⟨he, ho, ht, hlt, hb, h4, hv⟩
  · simp [Decoder.write, Decoder.hasErr, he]
  · simp [Decoder.write, Decoder.hasErr, he, ho, ht, hb]
  · simp [Decoder.write, Decoder.hasErr, he, ho, hn]
  · simp [Decoder.write, Decoder.hasErr, he, ho, ht, Decoder.takeLength, hb, Decoder.recordError]
  · simp [Decoder.write, Decoder.hasErr, he, ho, ht, Decoder.takeLength, Nat.not_lt.2 hb]
  · have hbt : (D.total.toNat : Int) < (D.explen.toNat : Int) - 1 := by omega
    have hs := (storePostInc_eq_ok cap D.buf _ D.widx b _).2 ⟨hwi, rfl, rfl⟩
    simp [Decoder.write, Decoder.hasErr, he, ho, ht, Decoder.beforeTerminal, hbt, Decoder.takePayload, hs]
  all_goals
    have hbt : ¬((D.total.toNat : Int) < (D.explen.toNat : Int) - 1) := by omega
  · rcases hb with hb | hb
    · simp [Decoder.write, Decoder.hasErr, he, ho, ht, Decoder.beforeTerminal, hbt, Decoder.takeTerminal, hb, Decoder.recordError]
    · simp [Decoder.write, Decoder.hasErr, he, ho, ht, Decoder.beforeTerminal, hbt, Decoder.takeTerminal, hb, Decoder.recordError]
  · have key : ({ D with ridx := 0#8 } : Decoder).write cap b =
        ({ D with ridx := 0#8, isOpen := false, total := toByte (D.total.toNat + 1) } : Decoder).verify cap := by
      simp [Decoder.write, Decoder.hasErr, he, ho, ht, Decoder.beforeTerminal, hbt, Decoder.takeTerminal, hb, Nat.not_lt.2 h4]
    rw [key]
    rw [Decoder.verify_eq_ok] at hv ⊢
    obtain ⟨p, r, hp, hr, ⟨hcrc, rfl, rfl⟩ | ⟨hcrc, rfl, rfl⟩⟩ := hv
    · exact ⟨p, r, hp, hr, .inl ⟨hcrc, rfl, rfl⟩⟩
    · exact ⟨p, r, hp, hr, .inr ⟨hcrc, rfl, rfl⟩⟩

/-! ### The input since the last reset (R41 (c)) -/

theorem Decoder.since_clear (cap : Nat) (D : Decoder) : D.clear.Since cap [] := ⟨D, rfl⟩

theorem Decoder.since_reset (cap : Nat) : Decoder.reset.Since cap [] := Decoder.since_clear cap Decoder.reset

/-- The read cursor is the one field that the input does not give. -/
theorem Decoder.Since.withRidx {cap : Nat} {D : Decoder} {xs : List Byte} (h : D.Since cap xs) (c : Byte) :
    ({ D with ridx := c } : Decoder).Since cap xs := h

/-- One more input byte. -/
theorem Decoder.Since.write {cap : Nat} {D D' : Decoder} {xs : List Byte} {b : Byte} {a : Bool} (h : D.Since cap xs)
    (hw : D.write cap b = .ok (a, D')) : D'.Since cap (xs ++ [b]) := by
  obtain ⟨D0, h0⟩ := h
  exact ⟨D0, (Decoder.feed_snoc_eq_ok _ _ _ _ _).2 ⟨a, _, h0, Decoder.write_ridx hw⟩⟩

theorem dropWhile_snoc (p : Byte → Bool) (xs : List Byte) (b : Byte) :
    (xs ++ [b]).dropWhile p =
      if xs.dropWhile p = [] then (if p b = true then [] else [b]) else xs.dropWhile p ++ [b] := by
  rw [List.dropWhile_append]
  cases hx : xs.dropWhile p with
  | nil => cases hp : p b <;> simp [hp]
  | cons c cs => simp

/-- What the input since the last reset says of the buffer: its bytes below the write index, which are the input's bytes after
START and the length byte; and how much of the input there has been. -/
theorem Decoder.Since.stored {cap : Nat} (hc : cap ≤ 255) {D : Decoder} {xs : List Byte} (h : D.Since cap xs) :
    D.widx.toNat ≤ (afterLength xs).length ∧ ∀ i, i < D.widx.toNat → D.buf.read i = (afterLength xs)[i]? := by
  obtain ⟨D0, h0⟩ := h
  suffices H : ∀ E : Decoder, D0.clear.feed cap xs = .ok E →
      (E.isOpen = false → E.err = .noError → E.total.toNat = 0 → xs.dropWhile (fun b => b != Config.startByte) = []) ∧
      (E.isOpen = true → E.err = .noError ∧
        ((E.total.toNat = 1 ∧ (xs.dropWhile (fun b => b != Config.startByte)).length = 1 ∧ E.widx.toNat = 0) ∨
        (2 ≤ E.total.toNat ∧ (E.total.toNat = 2 ∨ E.total.toNat < E.explen.toNat) ∧
          (xs.dropWhile (fun b => b != Config.startByte)).length = E.widx.toNat + 2))) ∧
      E.widx.toNat ≤ (xs.dropWhile (fun b => b != Config.startByte)).length - 2 ∧
      ∀ i, i < E.widx.toNat → E.buf.read i = (xs.dropWhile (fun b => b != Config.startByte))[i + 2]? by
    obtain ⟨-, -, h3, h4⟩ := H _ h0
    simp only [afterLength, List.length_drop, List.getElem?_drop]
    refine ⟨h3, fun i hi => ?_⟩
    rw [Nat.add_comm 2 i]
    exact h4 i hi
  clear h0
  induction xs using List.reverseRecOn with
  | nil =>
    intro E hE
    obtain rfl : D0.clear = E := by simpa using hE
    simp [Decoder.clear]
  | append_singleton xs b ih =>
    intro E hE
    rw [Decoder.feed_snoc_eq_ok] at hE
    obtain ⟨a, E1, h1, hw⟩ := hE
    obtain ⟨g1, g2, g3, g4⟩ := ih E1 h1
    rw [dropWhile_snoc]
    generalize hys : xs.dropWhile (fun b => b != Config.startByte) = ys at *
    have keep : E1.widx.toNat ≤
        (if ys = [] then (if (b != Config.startByte) = true then [] else [b]) else ys ++ [b]).length - 2 ∧
        ∀ i, i < E1.widx.toNat → E1.buf.read i =
          (if ys = [] then (if (b != Config.startByte) = true then [] else [b]) else ys ++ [b])[i + 2]? := by
      by_cases hy : ys = []
      · have : E1.widx.toNat = 0 := by simpa [hy] using g3
        simp [this]
      · rw [if_neg hy]
        refine ⟨by simp; omega, fun i hi => ?_⟩
        rw [g4 i hi, List.getElem?_append_left (by omega)]
    rcases Decoder.write_cases hw with ⟨he, -, rfl⟩ | ⟨he, ho, ht, hb, -, rfl⟩ | ⟨he, ho, hn, -, rfl⟩ | ⟨he, ho, ht, hb, -, rfl⟩ |
      ⟨he, ho, ht, hb, -, rfl⟩ | ⟨he, ho, ht, hlt, hwi, -, rfl⟩ | ⟨he, ho, ht, hlt, -, -, rfl⟩ | ⟨he, ho, ht, hlt, hb, h4, hv⟩
    · refine ⟨fun _ h _ => absurd h he, fun h => absurd (g2 h).1 he, keep⟩
    · have hy := g1 ho he ht
      subst hb
      refine ⟨fun h => by simp at h, fun _ => ⟨he, .inl ⟨rfl, by simp [hy], ?_⟩⟩, keep⟩
      simpa [hy] using g3
    · refine ⟨fun _ _ h0 => ?_, fun h => by simp [ho] at h, keep⟩
      have hb : b ≠ Config.startByte := fun h => hn ⟨h0, h⟩
      simp [g1 ho he h0, hb]
    · exact ⟨fun _ h => by simp at h, fun h => by simp at h, keep⟩
    · obtain ⟨-, ⟨-, hl, hw0⟩ | ⟨h2, -⟩⟩ := g2 ho
      · have hy : ys ≠ [] := by rintro rfl; simp at hl
        refine ⟨fun h => by simp [ho] at h, fun _ => ⟨he, .inr ⟨by simp, .inl rfl, ?_⟩⟩, keep⟩
        simp only [if_neg hy, List.length_append, List.length_singleton]
        omega
      · omega
    · obtain ⟨-, ⟨h1, -⟩ | ⟨h2, hx, hl⟩⟩ := g2 ho
      · omega
      · have hy : ys ≠ [] := by rintro rfl; simp at hl
        have e1 : (toByte (E1.total.toNat + 1)).toNat = E1.total.toNat + 1 := toNat_toByte_of_lt (by omega)
        have e2 : (bump E1.widx).toNat = E1.widx.toNat + 1 := toNat_bump_of_lt (by omega)
        simp only [if_neg hy] at keep ⊢
        refine ⟨fun h => by simp [ho] at h, fun _ => ⟨he, .inr ⟨by simp only [e1]; omega, .inr (by simp only [e1]; omega), ?_⟩⟩, ?_, ?_⟩
        · simp only [e2, List.length_append, List.length_singleton]; omega
        · simp only [e2, List.length_append, List.length_singleton]; omega
        · intro i hi
          simp only [e2] at hi
          by_cases hiw : i = E1.widx.toNat
          · subst hiw
            rw [Memory.read_write_same, List.getElem?_append_right (by omega), hl]
            simp
          · rw [Memory.read_write_other _ _ hiw]
            exact keep.2 i (by omega)
    · exact ⟨fun _ h => by simp at h, fun h => by simp at h, keep⟩
    · obtain ⟨-, ⟨h1, -⟩ | ⟨h2, hx, hl⟩⟩ := g2 ho
      · omega
      · have e1 : (toByte (E1.total.toNat + 1)).toNat = E1.total.toNat + 1 := toNat_toByte_of_lt (by omega)
        rw [Decoder.verify_eq_ok] at hv
        obtain ⟨p, r, -, -, ⟨-, -, rfl⟩ | ⟨-, -, rfl⟩⟩ := hv
        · refine ⟨fun _ _ h0 => ?_, fun h => by simp at h, keep⟩
          simp only [e1] at h0
          omega
        · exact ⟨fun _ h => by simp at h, fun h => by simp at h, keep⟩

/-- Everything an accepted encoder write can do (R122). -/
theorem Encoder.append_eq_ok (cap : Nat) (e e' : Encoder) (b : Byte) :
    e.append cap b = .ok e' ↔
      e.cur.toNat < cap ∧
      e' = { e with buf := e.buf.write e.cur.toNat b, cur := bump e.cur, total := toByte (e.total.toNat + 1) } := by
  unfold Encoder.append
  constructor
  · intro h
    split at h
    · cases h
    · rename_i m c hm
      rw [storePostInc_eq_ok] at hm
      obtain ⟨h1, rfl, rfl⟩ := hm
      simp only [Except.ok.injEq] at h
      exact ⟨h1, h.symm⟩
  · rintro ⟨h1, rfl⟩
    rw [(storePostInc_eq_ok cap e.buf _ e.cur b _).2 ⟨h1, rfl, rfl⟩]

/-- Everything finalizing an encoder can do (R123): the three stores, the checksum between the last two. -/
theorem Encoder.finalize_eq_ok (cap : Nat) (e e' : Encoder) :
    e.finalize cap = .ok e' ↔
      e.total.toNat + 1 < cap ∧ 1 < cap ∧
      ∃ covered,
        loadRange cap ((e.buf.write (e.total.toNat + 1) Config.endByte).write 1 (toByte (e.total.toNat + 2))) 1
          (e.total.toNat - 1) = .ok covered ∧
        e' = { buf := ((e.buf.write (e.total.toNat + 1) Config.endByte).write 1 (toByte (e.total.toNat + 2))).write
                  e.total.toNat (crc8Seq 0x00#8 covered)
               cur := 0#8, total := toByte (e.total.toNat + 2), isOpen := false } := by
  unfold Encoder.finalize
  simp only [show e.total.toNat + 2 - 1 = e.total.toNat + 1 by omega, show e.total.toNat + 2 - 3 = e.total.toNat - 1 by omega,
    show e.total.toNat + 2 - 2 = e.total.toNat by omega]
  constructor
  · intro h
    split at h
    · cases h
    · rename_i m1 hm1
      rw [store_eq_ok] at hm1
      obtain ⟨h1, rfl⟩ := hm1
      split at h
      · cases h
      · rename_i m2 hm2
        rw [store_eq_ok] at hm2
        obtain ⟨h2, rfl⟩ := hm2
        split at h
        · cases h
        · rename_i covered hc
          split at h
          · cases h
          · rename_i m3 hm3
            rw [store_eq_ok] at hm3
            obtain ⟨h3, rfl⟩ := hm3
            simp only [Except.ok.injEq] at h
            exact ⟨h1, h2, covered, hc, h.symm⟩
  · rintro ⟨h1, h2, covered, hc, rfl⟩
    rw [store_of_lt _ _ h1]
    simp only [store_of_lt _ _ h2, hc, store_of_lt _ _ (show e.total.toNat < cap by omega)]

end Sys2Proof.Machine
end

