-- ==== Sys2Proof/Laws/Fields.lean ====
section
/-! SUPPORT. The two fields of a command word (30_encoding.md R80) and of a joined pair of bytes, and the three fields of a response word (R82). -/

namespace Sys2Proof

theorem extract_high (hi lo : Byte) : (hi ++ lo).extractLsb' 8 8 = hi := by
  apply BitVec.eq_of_getElem_eq
  intro j hj
  rw [BitVec.getElem_extractLsb', BitVec.getLsbD_append]
  simp [hj]

theorem extract_low (hi lo : Byte) : (hi ++ lo).extractLsb' 0 8 = lo := by
  apply BitVec.eq_of_getElem_eq
  intro j hj
  rw [BitVec.getElem_extractLsb', BitVec.getLsbD_append]
  simp [hj]

theorem append_extract (w : BitVec 16) : w.extractLsb' 8 8 ++ w.extractLsb' 0 8 = w := by
  apply BitVec.eq_of_getElem_eq
  intro j hj
  rw [BitVec.getElem_append]
  split
  · rw [BitVec.getElem_extractLsb', Nat.zero_add, BitVec.getLsbD_eq_getElem]
  · rw [BitVec.getElem_extractLsb', show 8 + (j - 8) = j by omega, BitVec.getLsbD_eq_getElem]

theorem opcField_append (opc imm8 : Byte) : opcField (opc ++ imm8) = opc := extract_high opc imm8

theorem immField_append (opc imm8 : Byte) : immField (opc ++ imm8) = imm8 := extract_low opc imm8

namespace Machine

theorem respWord_ill (ill f : Bool) (d : Byte) : (respWord ill f d).getLsbD 9 = ill := by
  rw [respWord, BitVec.getLsbD_append, BitVec.getLsbD_append]
  cases ill <;> cases f <;> rfl

theorem respWord_flag (ill f : Bool) (d : Byte) : (respWord ill f d).getLsbD 8 = f := by
  rw [respWord, BitVec.getLsbD_append, BitVec.getLsbD_append]
  cases ill <;> cases f <;> rfl

theorem respWord_data (ill f : Bool) (d : Byte) : (respWord ill f d).extractLsb' 0 8 = d := by
  apply BitVec.eq_of_getElem_eq
  intro j hj
  rw [BitVec.getElem_extractLsb', respWord, BitVec.getLsbD_append]
  simp [hj]

/-- Two response words are equal exactly when their three fields are. -/
theorem respWord_eq_iff (ill f ill' f' : Bool) (d d' : Byte) :
    respWord ill f d = respWord ill' f' d' ↔ ill = ill' ∧ f = f' ∧ d = d' := by
  constructor
  · intro h
    refine ⟨?_, ?_, ?_⟩
    · rw [← respWord_ill ill f d, h, respWord_ill]
    · rw [← respWord_flag ill f d, h, respWord_flag]
    · rw [← respWord_data ill f d, h, respWord_data]
  · rintro ⟨rfl, rfl, rfl⟩
    rfl

end Machine

end Sys2Proof
end

