-- ==== Sys2Proof/Laws/PerInstr.lean ====
section
/-! SUPPORT. A statement about every command as syntax, one lemma per constructor of `Instr`. -/

namespace Sys2Proof.Laws.EncodeIsLegal

/-- The encoder's word for the command is a legal command word (30_encoding.md R86). -/
def Statement (i : Instr) : Prop := wordLegal (encode i) = true

theorem legal_of_opcode (opc imm8 : Byte) (h : opcodeKnown opc = true) (hB : opcodeTakesByte opc = true) :
    wordLegal (opc ++ imm8) = true := by
  simp [wordLegal, operandAllowed, extract_high, h, hB]

theorem crcReset : Statement .crcReset := by unfold Statement; decide
theorem crcCalc (imm8 : Byte) : Statement (.crcCalc imm8) := legal_of_opcode 0x11#8 imm8 (by decide) (by decide)
theorem crcUpdate (imm8 : Byte) : Statement (.crcUpdate imm8) := legal_of_opcode 0x12#8 imm8 (by decide) (by decide)
theorem crcRead : Statement .crcRead := by unfold Statement; decide
theorem encReset : Statement .encReset := by unfold Statement; decide
theorem encWrite (imm8 : Byte) : Statement (.encWrite imm8) := legal_of_opcode 0x21#8 imm8 (by decide) (by decide)
theorem encEnd : Statement .encEnd := by unfold Statement; decide
theorem encAvail : Statement .encAvail := by unfold Statement; decide
theorem encRead : Statement .encRead := by unfold Statement; decide
theorem encPktlen : Statement .encPktlen := by unfold Statement; decide
theorem decReset : Statement .decReset := by unfold Statement; decide
theorem decWrite (imm8 : Byte) : Statement (.decWrite imm8) := legal_of_opcode 0x31#8 imm8 (by decide) (by decide)
theorem decAvail : Statement .decAvail := by unfold Statement; decide
theorem decRead : Statement .decRead := by unfold Statement; decide
theorem decIsopen : Statement .decIsopen := by unfold Statement; decide
theorem decHaserr : Statement .decHaserr := by unfold Statement; decide
theorem decLasterr : Statement .decLasterr := by unfold Statement; decide
theorem decTotlen : Statement .decTotlen := by unfold Statement; decide
theorem reqSetAddr (imm8 : Byte) : Statement (.reqSetAddr imm8) := legal_of_opcode 0x40#8 imm8 (by decide) (by decide)
theorem reqSetResplen (imm8 : Byte) : Statement (.reqSetResplen imm8) := legal_of_opcode 0x41#8 imm8 (by decide) (by decide)
theorem reqSetDelayLo (imm8 : Byte) : Statement (.reqSetDelayLo imm8) := legal_of_opcode 0x42#8 imm8 (by decide) (by decide)
theorem reqSetDelayHi (imm8 : Byte) : Statement (.reqSetDelayHi imm8) := legal_of_opcode 0x43#8 imm8 (by decide) (by decide)
theorem reqSetAttempts (imm8 : Byte) : Statement (.reqSetAttempts imm8) := legal_of_opcode 0x44#8 imm8 (by decide) (by decide)
theorem reqStart : Statement .reqStart := by unfold Statement; decide
theorem reqStatus : Statement .reqStatus := by unfold Statement; decide
theorem reqAvail : Statement .reqAvail := by unfold Statement; decide
theorem reqRead : Statement .reqRead := by unfold Statement; decide

end Sys2Proof.Laws.EncodeIsLegal
end

