-- ==== Sys2Proof/Laws/State.lean ====
section
/-! SUPPORT. One lemma per field per named update of the state, true by rfl, so that no later proof unfolds a record update. -/

namespace Sys2Proof.Machine

/-! ### respond -/

@[simp] theorem State.respond_maxPayload (s : State) (f : Bool) (d : Byte) : (s.respond f d).maxPayload = s.maxPayload := rfl
@[simp] theorem State.respond_crcAcc (s : State) (f : Bool) (d : Byte) : (s.respond f d).crcAcc = s.crcAcc := rfl
@[simp] theorem State.respond_enc (s : State) (f : Bool) (d : Byte) : (s.respond f d).enc = s.enc := rfl
@[simp] theorem State.respond_dec (s : State) (f : Bool) (d : Byte) : (s.respond f d).dec = s.dec := rfl
@[simp] theorem State.respond_req (s : State) (f : Bool) (d : Byte) : (s.respond f d).req = s.req := rfl
@[simp] theorem State.respond_resetPin (s : State) (f : Bool) (d : Byte) : (s.respond f d).resetPin = s.resetPin := rfl
@[simp] theorem State.respond_hostCmds (s : State) (f : Bool) (d : Byte) : (s.respond f d).hostCmds = s.hostCmds := rfl
@[simp] theorem State.respond_resp (s : State) (f : Bool) (d : Byte) : (s.respond f d).resp = some (respWord false f d) := rfl
@[simp] theorem State.respond_envDone (s : State) (f : Bool) (d : Byte) : (s.respond f d).envDone = s.envDone := rfl
@[simp] theorem State.respond_envPolls (s : State) (f : Bool) (d : Byte) : (s.respond f d).envPolls = s.envPolls := rfl
@[simp] theorem State.respond_trace (s : State) (f : Bool) (d : Byte) : (s.respond f d).trace = s.trace := rfl
@[simp] theorem State.respond_cap (s : State) (f : Bool) (d : Byte) : (s.respond f d).cap = s.cap := rfl

/-! ### respond_illegal -/

@[simp] theorem State.respondIllegal_maxPayload (s : State) : (s.respondIllegal).maxPayload = s.maxPayload := rfl
@[simp] theorem State.respondIllegal_crcAcc (s : State) : (s.respondIllegal).crcAcc = s.crcAcc := rfl
@[simp] theorem State.respondIllegal_enc (s : State) : (s.respondIllegal).enc = s.enc := rfl
@[simp] theorem State.respondIllegal_dec (s : State) : (s.respondIllegal).dec = s.dec := rfl
@[simp] theorem State.respondIllegal_req (s : State) : (s.respondIllegal).req = s.req := rfl
@[simp] theorem State.respondIllegal_resetPin (s : State) : (s.respondIllegal).resetPin = s.resetPin := rfl
@[simp] theorem State.respondIllegal_hostCmds (s : State) : (s.respondIllegal).hostCmds = s.hostCmds := rfl
@[simp] theorem State.respondIllegal_resp (s : State) : (s.respondIllegal).resp = some (respWord true false 0#8) := rfl
@[simp] theorem State.respondIllegal_envDone (s : State) : (s.respondIllegal).envDone = s.envDone := rfl
@[simp] theorem State.respondIllegal_envPolls (s : State) : (s.respondIllegal).envPolls = s.envPolls := rfl
@[simp] theorem State.respondIllegal_trace (s : State) : (s.respondIllegal).trace = s.trace := rfl
@[simp] theorem State.respondIllegal_cap (s : State) : (s.respondIllegal).cap = s.cap := rfl

/-! ### emit -/

@[simp] theorem State.emit_maxPayload (s : State) (es : List Event) : (s.emit es).maxPayload = s.maxPayload := rfl
@[simp] theorem State.emit_crcAcc (s : State) (es : List Event) : (s.emit es).crcAcc = s.crcAcc := rfl
@[simp] theorem State.emit_enc (s : State) (es : List Event) : (s.emit es).enc = s.enc := rfl
@[simp] theorem State.emit_dec (s : State) (es : List Event) : (s.emit es).dec = s.dec := rfl
@[simp] theorem State.emit_req (s : State) (es : List Event) : (s.emit es).req = s.req := rfl
@[simp] theorem State.emit_resetPin (s : State) (es : List Event) : (s.emit es).resetPin = s.resetPin := rfl
@[simp] theorem State.emit_hostCmds (s : State) (es : List Event) : (s.emit es).hostCmds = s.hostCmds := rfl
@[simp] theorem State.emit_resp (s : State) (es : List Event) : (s.emit es).resp = s.resp := rfl
@[simp] theorem State.emit_envDone (s : State) (es : List Event) : (s.emit es).envDone = s.envDone := rfl
@[simp] theorem State.emit_envPolls (s : State) (es : List Event) : (s.emit es).envPolls = s.envPolls := rfl
@[simp] theorem State.emit_trace (s : State) (es : List Event) : (s.emit es).trace = s.trace ++ es := rfl
@[simp] theorem State.emit_cap (s : State) (es : List Event) : (s.emit es).cap = s.cap := rfl

/-! ### finish -/

@[simp] theorem State.finish_maxPayload (s : State) (st : ReqStatus) : (s.finish st).maxPayload = s.maxPayload := rfl
@[simp] theorem State.finish_crcAcc (s : State) (st : ReqStatus) : (s.finish st).crcAcc = s.crcAcc := rfl
@[simp] theorem State.finish_enc (s : State) (st : ReqStatus) : (s.finish st).enc = s.enc := rfl
@[simp] theorem State.finish_dec (s : State) (st : ReqStatus) : (s.finish st).dec = s.dec := rfl
@[simp] theorem State.finish_req (s : State) (st : ReqStatus) : (s.finish st).req = { s.req with status := st, state := .idle, awaiting := false } := rfl
@[simp] theorem State.finish_resetPin (s : State) (st : ReqStatus) : (s.finish st).resetPin = s.resetPin := rfl
@[simp] theorem State.finish_hostCmds (s : State) (st : ReqStatus) : (s.finish st).hostCmds = s.hostCmds := rfl
@[simp] theorem State.finish_resp (s : State) (st : ReqStatus) : (s.finish st).resp = some (respWord false (decide (st = .packetRead)) st.code) := rfl
@[simp] theorem State.finish_envDone (s : State) (st : ReqStatus) : (s.finish st).envDone = s.envDone := rfl
@[simp] theorem State.finish_envPolls (s : State) (st : ReqStatus) : (s.finish st).envPolls = s.envPolls := rfl
@[simp] theorem State.finish_trace (s : State) (st : ReqStatus) : (s.finish st).trace = s.trace := rfl
@[simp] theorem State.finish_cap (s : State) (st : ReqStatus) : (s.finish st).cap = s.cap := rfl

/-! ### present -/

@[simp] theorem State.present_maxPayload (s : State) (w : CmdWord) : (s.present w).maxPayload = s.maxPayload := rfl
@[simp] theorem State.present_crcAcc (s : State) (w : CmdWord) : (s.present w).crcAcc = s.crcAcc := rfl
@[simp] theorem State.present_enc (s : State) (w : CmdWord) : (s.present w).enc = s.enc := rfl
@[simp] theorem State.present_dec (s : State) (w : CmdWord) : (s.present w).dec = s.dec := rfl
@[simp] theorem State.present_req (s : State) (w : CmdWord) : (s.present w).req = { s.req with state := .idle } := rfl
@[simp] theorem State.present_resetPin (s : State) (w : CmdWord) : (s.present w).resetPin = false := rfl
@[simp] theorem State.present_hostCmds (s : State) (w : CmdWord) : (s.present w).hostCmds = w :: s.hostCmds := rfl
@[simp] theorem State.present_resp (s : State) (w : CmdWord) : (s.present w).resp = s.resp := rfl
@[simp] theorem State.present_envDone (s : State) (w : CmdWord) : (s.present w).envDone = s.envDone := rfl
@[simp] theorem State.present_envPolls (s : State) (w : CmdWord) : (s.present w).envPolls = s.envPolls := rfl
@[simp] theorem State.present_trace (s : State) (w : CmdWord) : (s.present w).trace = s.trace := rfl
@[simp] theorem State.present_cap (s : State) (w : CmdWord) : (s.present w).cap = s.cap := rfl

/-! ### hardware reset -/

@[simp] theorem State.hardReset_maxPayload (s : State) : (s.hardReset).maxPayload = s.maxPayload := rfl
@[simp] theorem State.hardReset_crcAcc (s : State) : (s.hardReset).crcAcc = 0#8 := rfl
@[simp] theorem State.hardReset_enc (s : State) : (s.hardReset).enc = Encoder.reset := rfl
@[simp] theorem State.hardReset_dec (s : State) : (s.hardReset).dec = Decoder.reset := rfl
@[simp] theorem State.hardReset_req (s : State) : (s.hardReset).req = Requester.reset := rfl
@[simp] theorem State.hardReset_resetPin (s : State) : (s.hardReset).resetPin = false := rfl
@[simp] theorem State.hardReset_hostCmds (s : State) : (s.hardReset).hostCmds = s.hostCmds := rfl
@[simp] theorem State.hardReset_resp (s : State) : (s.hardReset).resp = none := rfl
@[simp] theorem State.hardReset_envDone (s : State) : (s.hardReset).envDone = s.envDone := rfl
@[simp] theorem State.hardReset_envPolls (s : State) : (s.hardReset).envPolls = s.envPolls := rfl
@[simp] theorem State.hardReset_trace (s : State) : (s.hardReset).trace = s.trace := rfl
@[simp] theorem State.hardReset_cap (s : State) : (s.hardReset).cap = s.cap := rfl

/-! ### finish_exhausted -/

@[simp] theorem State.finishExhausted_maxPayload (s : State) : (s.finishExhausted).maxPayload = s.maxPayload := rfl
@[simp] theorem State.finishExhausted_crcAcc (s : State) : (s.finishExhausted).crcAcc = s.crcAcc := rfl
@[simp] theorem State.finishExhausted_enc (s : State) : (s.finishExhausted).enc = s.enc := rfl
@[simp] theorem State.finishExhausted_dec (s : State) : (s.finishExhausted).dec = s.dec := rfl
@[simp] theorem State.finishExhausted_req (s : State) : (s.finishExhausted).req = { s.req with status := if s.req.lasterr = true then .packetError else .attemptsExhausted, state := .idle, awaiting := false } := rfl
@[simp] theorem State.finishExhausted_resetPin (s : State) : (s.finishExhausted).resetPin = s.resetPin := rfl
@[simp] theorem State.finishExhausted_hostCmds (s : State) : (s.finishExhausted).hostCmds = s.hostCmds := rfl
@[simp] theorem State.finishExhausted_resp (s : State) : (s.finishExhausted).resp = some (respWord false (decide ((if s.req.lasterr = true then ReqStatus.packetError else ReqStatus.attemptsExhausted) = .packetRead)) (if s.req.lasterr = true then ReqStatus.packetError else ReqStatus.attemptsExhausted).code) := rfl
@[simp] theorem State.finishExhausted_envDone (s : State) : (s.finishExhausted).envDone = s.envDone := rfl
@[simp] theorem State.finishExhausted_envPolls (s : State) : (s.finishExhausted).envPolls = s.envPolls := rfl
@[simp] theorem State.finishExhausted_trace (s : State) : (s.finishExhausted).trace = s.trace := rfl
@[simp] theorem State.finishExhausted_cap (s : State) : (s.finishExhausted).cap = s.cap := rfl

/-! ### dec_reset and the recording of an error -/

@[simp] theorem Decoder.clear_buf (D : Decoder) : D.clear.buf = D.buf := rfl
@[simp] theorem Decoder.clear_widx (D : Decoder) : D.clear.widx = 0#8 := rfl
@[simp] theorem Decoder.clear_ridx (D : Decoder) : D.clear.ridx = 0#8 := rfl
@[simp] theorem Decoder.clear_total (D : Decoder) : D.clear.total = 0#8 := rfl
@[simp] theorem Decoder.clear_explen (D : Decoder) : D.clear.explen = 0#8 := rfl
@[simp] theorem Decoder.clear_paylen (D : Decoder) : D.clear.paylen = 0#8 := rfl
@[simp] theorem Decoder.clear_isOpen (D : Decoder) : D.clear.isOpen = false := rfl
@[simp] theorem Decoder.clear_err (D : Decoder) : D.clear.err = .noError := rfl

@[simp] theorem Decoder.recordError_buf (D : Decoder) (e : DecErr) : (D.recordError e).buf = D.buf := rfl
@[simp] theorem Decoder.recordError_widx (D : Decoder) (e : DecErr) : (D.recordError e).widx = D.widx := rfl
@[simp] theorem Decoder.recordError_ridx (D : Decoder) (e : DecErr) : (D.recordError e).ridx = D.ridx := rfl
@[simp] theorem Decoder.recordError_total (D : Decoder) (e : DecErr) : (D.recordError e).total = D.total := rfl
@[simp] theorem Decoder.recordError_explen (D : Decoder) (e : DecErr) : (D.recordError e).explen = D.explen := rfl
@[simp] theorem Decoder.recordError_paylen (D : Decoder) (e : DecErr) : (D.recordError e).paylen = D.paylen := rfl
@[simp] theorem Decoder.recordError_isOpen (D : Decoder) (e : DecErr) : (D.recordError e).isOpen = false := rfl
@[simp] theorem Decoder.recordError_err (D : Decoder) (e : DecErr) : (D.recordError e).err = e := rfl

/-! ### the working registers as REQ_START leaves them, and the encoder as ENC_RESET leaves it -/

@[simp] theorem Requester.begin_addr (r : Requester) : r.begin.addr = r.addr := rfl
@[simp] theorem Requester.begin_resplen (r : Requester) : r.begin.resplen = r.resplen := rfl
@[simp] theorem Requester.begin_delay (r : Requester) : r.begin.delay = r.delay := rfl
@[simp] theorem Requester.begin_maxatt (r : Requester) : r.begin.maxatt = r.maxatt := rfl
@[simp] theorem Requester.begin_attempt (r : Requester) : r.begin.attempt = 0#8 := rfl
@[simp] theorem Requester.begin_needtrig (r : Requester) : r.begin.needtrig = true := rfl
@[simp] theorem Requester.begin_lasterr (r : Requester) : r.begin.lasterr = false := rfl
@[simp] theorem Requester.begin_status (r : Requester) : r.begin.status = .noStatus := rfl
@[simp] theorem Requester.begin_state (r : Requester) : r.begin.state = .check := rfl
@[simp] theorem Requester.begin_rxbuf (r : Requester) : r.begin.rxbuf = r.rxbuf := rfl
@[simp] theorem Requester.begin_rxlen (r : Requester) : r.begin.rxlen = 0#8 := rfl
@[simp] theorem Requester.begin_rxcur (r : Requester) : r.begin.rxcur = 0#8 := rfl
@[simp] theorem Requester.begin_rdec (r : Requester) : r.begin.rdec = r.rdec.clear := rfl
@[simp] theorem Requester.begin_trigSent (r : Requester) : r.begin.trigSent = 0 := rfl
@[simp] theorem Requester.begin_awaiting (r : Requester) : r.begin.awaiting = false := rfl

@[simp] theorem Encoder.rearm_buf (e : Encoder) : e.rearm.buf = e.buf.write 0 Config.startByte := rfl
@[simp] theorem Encoder.rearm_cur (e : Encoder) : e.rearm.cur = 2#8 := rfl
@[simp] theorem Encoder.rearm_total (e : Encoder) : e.rearm.total = 2#8 := rfl
@[simp] theorem Encoder.rearm_isOpen (e : Encoder) : e.rearm.isOpen = true := rfl

/-! ### emitting the event of a micro-step once -/

theorem State.emitOnce_pending (s : State) (e : Event) (h : s.req.awaiting = true) : s.emitOnce e = s := by
  simp [State.emitOnce, h]

theorem State.emitOnce_fresh (s : State) (e : Event) (h : s.req.awaiting = false) :
    s.emitOnce e = { s with req := { s.req with awaiting := true }, trace := s.trace ++ [e] } := by
  simp [State.emitOnce, h, State.emit]

/-- Whatever was out before, afterwards the event of the micro-step is out, and only `awaiting` and the trace may differ. -/
theorem State.emitOnce_eq (s : State) (e : Event) :
    s.emitOnce e = { s with req := { s.req with awaiting := true }, trace := (s.emitOnce e).trace } := by
  cases h : s.req.awaiting with
  | true =>
    rw [State.emitOnce_pending s e h]
    cases s with | mk mp ca en de rq rp hc re ed ep tr =>
      cases rq; simp_all
  | false => rw [State.emitOnce_fresh s e h]

end Sys2Proof.Machine
end

