-- ==== Sys2Proof/Laws/Requester.lean ====
section
/-! SUPPORT. What a step and a micro-step of the requester can do, said once (44_requester.md R197 to R202, 70_reset_and_hazards.md R280). -/

namespace Sys2Proof.Machine

/-- The trace with the event of the present RQ_WAIT or RQ_POLL in it (log 5). -/
def State.traceWith (s : State) (e : Event) : List Event := if s.req.awaiting = true then s.trace else s.trace ++ [e]

theorem State.emitOnce_traceWith (s : State) (e : Event) :
    s.emitOnce e = { s with req := { s.req with awaiting := true }, trace := s.traceWith e } := by
  obtain ⟨_, _, _, _, r, _, _, _, _, _, _⟩ := s
  obtain ⟨_, _, _, _, _, _, _, _, _, _, _, _, _, _, aw⟩ := r
  cases aw <;> rfl

/-- Everything one of the six trigger steps can do (R198, log 15): the step that has sent `k` events sends the next. -/
theorem microTrig_eq (s : State) :
    microTrig s = { s with
      req := if s.req.trigSent.val < 5 then { s.req with trigSent := s.req.trigSent + 1 }
        else { s.req with trigSent := 0, needtrig := false, state := .wait }
      trace := s.trace ++ ((triggerEvents s.req.addr).drop s.req.trigSent.val).take 1 } := by
  unfold microTrig
  dsimp only
  split <;> rfl

/-- Everything the wait can do (R199, R208). -/
theorem microWait_eq (s : State) :
    microWait s = match s.envDone with
      | 0 => { s with req := { s.req with awaiting := true }, trace := s.traceWith (.wait s.req.waitTime) }
      | k + 1 => { s with
          envDone := k, req := { s.req with awaiting := false, state := .poll }
          trace := s.traceWith (.wait s.req.waitTime) } := by
  cases h : s.envDone <;> simp [microWait, State.emitOnce_traceWith, h]

/-- Everything the poll can do (R200, R208). -/
theorem microPoll_eq_ok (s t : State) :
    microPoll s = .ok t ↔
      (s.envPolls = [] ∧
        t = { s with req := { s.req with awaiting := true }, trace := s.traceWith (.poll s.req.addr s.req.resplen) }) ∨
      (∃ rest, s.envPolls = [] :: rest ∧
        t = { s with
          envPolls := rest, req := { s.req with status := .peerNotFound, state := .idle, awaiting := false }
          resp := some (respWord false false 0x02#8), trace := s.traceWith (.poll s.req.addr s.req.resplen) }) ∨
      (∃ b bs rest D, s.envPolls = (b :: bs) :: rest ∧ s.req.rdec.feed s.cap (b :: bs) = .ok D ∧
        t = { s with
          envPolls := rest, req := { s.req with rdec := D, awaiting := false, state := .eval }
          trace := s.traceWith (.poll s.req.addr s.req.resplen) }) := by
  simp only [microPoll, State.emitOnce_traceWith]
  split
  · rename_i h
    simp [h, eq_comm]
  · rename_i rx rest h
    cases rx with
    | nil =>
      simp only [takeAnswer, State.finish, State.respond, h]
      simp [eq_comm, ReqStatus.code]
    | cons b bs =>
      have hcap : ∀ x y z, ({ s with req := x, envPolls := y, trace := z } : State).cap = s.cap := fun _ _ _ => rfl
      simp only [takeAnswer, h, hcap]
      cases hf : s.req.rdec.feed s.cap (b :: bs) with
      | error f => simp [hf]
      | ok D => simp [hf, eq_comm (b := t)]

/-- Everything the copy of a verified payload can do (R201, document step 3). -/
theorem takePayload_eq_ok (s t : State) :
    takePayload s = .ok t ↔
      ∃ payload m, loadRange s.cap s.req.rdec.buf 0 s.req.rdec.paylen.toNat = .ok payload ∧
        storeList (s.cap - 4) s.req.rxbuf 0 payload = .ok m ∧
        t = { s with
          req := { s.req with
            rxbuf := m, rxlen := s.req.rdec.paylen, rxcur := 0#8, status := .packetRead, state := .idle, awaiting := false }
          resp := some (respWord false true 0x01#8) } := by
  unfold takePayload
  cases loadRange s.cap s.req.rdec.buf 0 s.req.rdec.paylen.toNat with
  | error f => simp
  | ok payload =>
    cases hm : storeList (s.cap - 4) s.req.rxbuf 0 payload with
    | error f => simp [hm]
    | ok m => simp [hm, State.finish, State.respond, ReqStatus.code, eq_comm]

/-- Which of its five cases a step is in: hardware reset (R280), no command, a command, an illegal word (R86), a micro-step. -/
theorem step_eq_next (s t : State) :
    step s = .next t ↔
      (s.resetPin = true ∧ t = s.hardReset) ∨
      (s.resetPin = false ∧ s.req.state = .idle ∧ s.hostCmds = [] ∧ t = s) ∨
      (s.resetPin = false ∧ s.req.state = .idle ∧ ∃ w rest i, s.hostCmds = w :: rest ∧ decode w = .instr i ∧
        exec i { s with hostCmds := rest } = .next t) ∨
      (s.resetPin = false ∧ s.req.state = .idle ∧ ∃ w rest why, s.hostCmds = w :: rest ∧ decode w = .illegal why ∧
        t = { s with hostCmds := rest, resp := some (respWord true false 0#8) }) ∨
      (s.resetPin = false ∧ s.req.state ≠ .idle ∧ requesterStep s = .next t) := by
  unfold step commandStep State.fetch
  by_cases hp : s.resetPin = true
  · simp [hp, eq_comm]
  · simp only [Bool.not_eq_true] at hp
    by_cases hi : s.req.state = .idle
    · cases hc : s.hostCmds with
      | nil => simp [hp, hi, eq_comm]
      | cons w rest => cases hd : decode w <;> simp [hp, hi, hd, State.respondIllegal, eq_comm]
    · simp [hp, hi]

@[simp] theorem runFrom_zero (s : State) : runFrom 0 s = .next s := rfl

/-- A run of `j + k` steps is a run of `j`, then one of `k`. -/
theorem runFrom_add (j k : Nat) (s t : State) (h : runFrom j s = .next t) : runFrom (j + k) s = runFrom k t := by
  induction j generalizing s with
  | zero =>
    obtain rfl : s = t := by simpa using h
    rw [Nat.zero_add]
  | succ j ih =>
    rw [Nat.add_right_comm]
    simp only [runFrom] at h ⊢
    split at h
    · exact ih _ h
    · cases h
    · cases h

theorem runFrom_one (s t : State) (h : step s = .next t) : runFrom 1 s = .next t := by simp [runFrom, h]

/-- `runFrom` is the host's run of this machine. -/
theorem runFrom_eq_run (k : Nat) (s : State) : runFrom k s = Host.Core.run Sys2Proof.core k s := by
  induction k generalizing s with
  | zero => rfl
  | succ k ih =>
    cases h : step s with
    | next t =>
      have h' : Sys2Proof.core.step s = .next t := h
      simp only [runFrom, h, Host.Core.run, h']
      exact ih t
    | fault f =>
      have h' : Sys2Proof.core.step s = .fault f := h
      simp only [runFrom, h, Host.Core.run, h']
      rfl
    | refused r =>
      have h' : Sys2Proof.core.step s = .refused r := h
      simp only [runFrom, h, Host.Core.run, h']
      rfl

end Sys2Proof.Machine
end

