-- ==== Sys2Proof/Tests/Slice0.lean ====
section
/-! SUPPORT. The model's own tests: the smoke test of WellFormed, words written out from the opcode map of 30_encoding.md R85, one-step tests with expected results from 95_test_vectors.md and the rules' examples, and for every obligation with hypotheses a concrete state that meets them. -/

namespace Sys2Proof.Tests

open Sys2Proof Sys2Proof.Machine

/-! ### WellFormed

Every term of `Instr` is well formed (its only operand is a byte), so the ill-formed inputs are command words. -/

theorem test_every_command_is_well_formed (i : Instr) : i.wellFormed = true := by cases i <;> rfl

/-- R86 (a): below, between and above the units' opcodes. -/
theorem test_unknown_opcodes_are_illegal :
    [0x0000#16, 0x0F00#16, 0x1400#16, 0x1FFF#16, 0x2600#16, 0x3800#16, 0x4900#16, 0x5000#16, 0xFFFF#16].all
      (fun w => !wordLegal w && decide (decode w = .illegal .unknownOpcode)) = true := by decide

/-- R86 (b): a format N word with an operand, one bit or all of them set. -/
theorem test_unwanted_operands_are_illegal :
    [0x1001#16, 0x13FF#16, 0x2080#16, 0x2201#16, 0x3010#16, 0x37FF#16, 0x4501#16, 0x48FF#16].all
      (fun w => !wordLegal w && decide (decode w = .illegal .operandNotZero)) = true := by decide

/-! ### Decoding: words written out from R85 -/

theorem test_decode_crc :
    decode 0x1000#16 = .instr .crcReset ∧ decode 0x11A5#16 = .instr (.crcCalc 0xA5#8) ∧
    decode 0x1231#16 = .instr (.crcUpdate 0x31#8) ∧ decode 0x1300#16 = .instr .crcRead := by decide

theorem test_decode_enc :
    decode 0x2000#16 = .instr .encReset ∧ decode 0x2148#16 = .instr (.encWrite 0x48#8) ∧
    decode 0x2200#16 = .instr .encEnd ∧ decode 0x2300#16 = .instr .encAvail ∧
    decode 0x2400#16 = .instr .encRead ∧ decode 0x2500#16 = .instr .encPktlen := by decide

theorem test_decode_dec :
    decode 0x3000#16 = .instr .decReset ∧ decode 0x3102#16 = .instr (.decWrite 0x02#8) ∧
    decode 0x3200#16 = .instr .decAvail ∧ decode 0x3300#16 = .instr .decRead ∧
    decode 0x3400#16 = .instr .decIsopen ∧ decode 0x3500#16 = .instr .decHaserr ∧
    decode 0x3600#16 = .instr .decLasterr ∧ decode 0x3700#16 = .instr .decTotlen := by decide

theorem test_decode_req :
    decode 0x4004#16 = .instr (.reqSetAddr 0x04#8) ∧ decode 0x4120#16 = .instr (.reqSetResplen 0x20#8) ∧
    decode 0x420A#16 = .instr (.reqSetDelayLo 0x0A#8) ∧ decode 0x4301#16 = .instr (.reqSetDelayHi 0x01#8) ∧
    decode 0x4403#16 = .instr (.reqSetAttempts 0x03#8) ∧ decode 0x4500#16 = .instr .reqStart ∧
    decode 0x4600#16 = .instr .reqStatus ∧ decode 0x4700#16 = .instr .reqAvail ∧
    decode 0x4800#16 = .instr .reqRead := by decide

theorem test_table_words_decode :
    decodeTableWord 16 0x11FF = some (.crcCalc 0xFF#8) ∧ decodeTableWord 16 0x1001 = none ∧
    decodeTableWord 32 0x1000 = none := by decide

/-! ### Helpers -/

/-- The next state of a step that has one. -/
def after (o : Host.Outcome State Fault Refusal) : Option State :=
  match o with
  | .next s => some s
  | .fault _ => none
  | .refused _ => none

/-- A field of the next state. -/
def view {α : Type} (o : Host.Outcome State Fault Refusal) (f : State → α) : Option α := (after o).map f

/-- `f=1 d=...` and `f=0 d=...` as 95_test_vectors.md writes them. -/
def ok (d : Byte) : Option RespWord := some (respWord false true d)
def no (d : Byte) : Option RespWord := some (respWord false false d)

/-- The reset state at capacity 8. -/
def small : State := State.resetWith 4

/-- The reset state at capacity 8 with a word for the port. -/
def given (w : CmdWord) : State := { small with hostCmds := [w] }

/-- The encoder of P1 in the open phase, payload `48 69` (V13). -/
def openHi : Encoder := { buf := [(0, 0x02#8), (2, 0x48#8), (3, 0x69#8)], cur := 4#8, total := 4#8, isOpen := true }

/-- The encoder closed on `02 06 48 69 C5 04` (V13), read cursor `c`. -/
def closedHi (c : Byte) : Encoder :=
  { buf := [(0, 0x02#8), (1, 0x06#8), (2, 0x48#8), (3, 0x69#8), (4, 0xC5#8), (5, 0x04#8)], cur := c, total := 6#8, isOpen := false }

/-- The record that has taken `02 06 48 69 C5 04` (V18), read cursor `c`. -/
def doneHi (c : Byte) : Decoder :=
  { buf := [(0, 0x48#8), (1, 0x69#8), (2, 0xC5#8)], widx := 3#8, ridx := c, total := 6#8, explen := 6#8, paylen := 2#8
    isOpen := false, err := .noError }

/-- A record one byte short of `doneHi`. -/
def almostHi : Decoder :=
  { buf := [(0, 0x48#8), (1, 0x69#8), (2, 0xC5#8)], widx := 3#8, ridx := 0#8, total := 5#8, explen := 6#8, paylen := 0#8
    isOpen := true, err := .noError }

/-- The record after `02 09` at capacity 8: invalid-length (R155 document rule 2). -/
def tooLong : Decoder :=
  { buf := [], widx := 0#8, ridx := 0#8, total := 1#8, explen := 9#8, paylen := 0#8, isOpen := false, err := .invalidLength }

/-- The requester in FSM state `q` on attempt `a` of `m`. -/
def running (q : ReqState) (a m : Byte) (trig lerr aw : Bool) (D : Decoder) : State :=
  { small with
    req := { small.req with
      addr := 0x04#8, resplen := 0x08#8, delay := 10#16, maxatt := m, attempt := a, needtrig := trig, lasterr := lerr, state := q
      rdec := D, awaiting := aw } }

/-- The requester after packet-read of `48 69`, read cursor `c`. -/
def gotHi (c : Byte) : State :=
  { small with
    req := { small.req with
      rxbuf := [(0, 0x48#8), (1, 0x69#8)], rxlen := 2#8, rxcur := c, status := .packetRead, rdec := doneHi 0#8 } }

/-! ### CRC unit (V2, V3, V4, V5, V10) -/

theorem test_crc_step_vectors :
    crc8Step 0x00#8 0x01#8 = 0x5E#8 ∧ crc8Step 0x00#8 0x04#8 = 0x61#8 ∧ crc8Step 0x00#8 0x80#8 = 0x8C#8 ∧
    crc8Step 0xA1#8 0x37#8 = 0xCC#8 ∧ crc8Step 0x12#8 0x34#8 = 0xFE#8 := by decide

theorem test_crc_reset : view (exec .crcReset { small with crcAcc := 0xEB#8 }) (fun t => (t.crcAcc, t.resp)) =
    some (0x00#8, ok 0x00#8) := by decide
theorem test_crc_calc_discards : view (exec (.crcCalc 0x31#8) { small with crcAcc := 0xEB#8 }) (fun t => (t.crcAcc, t.resp)) =
    some (0xE0#8, ok 0xE0#8) := by decide
theorem test_crc_update_continues : view (exec (.crcUpdate 0x32#8) { small with crcAcc := 0xE0#8 }) (fun t => (t.crcAcc, t.resp)) =
    some (0xEB#8, ok 0xEB#8) := by decide
theorem test_crc_read : view (exec .crcRead { small with crcAcc := 0x35#8 }) (fun t => (t.crcAcc, t.resp)) =
    some (0x35#8, ok 0x35#8) := by decide

/-! ### ENC unit (V11, V13, V16, V17) -/

theorem test_enc_reset : view (exec .encReset { small with enc := closedHi 3#8 }) (fun t => (t.enc.cur, t.enc.total, t.enc.isOpen, t.resp)) =
    some (2#8, 2#8, true, ok 0x00#8) := by decide
theorem test_enc_write : view (exec (.encWrite 0x48#8) small) (fun t => (t.enc.buf, t.enc.cur, t.enc.total, t.resp)) =
    some ([(0, 0x02#8), (2, 0x48#8)], 3#8, 3#8, ok 0x00#8) := by decide
/-- V16 at capacity 4: the first write is rejected. -/
theorem test_enc_write_full : view (exec (.encWrite 0x48#8) (State.resetWith 0)) (fun t => (t.enc, t.resp)) =
    some (Encoder.reset, no 0x00#8) := by decide
set_option maxRecDepth 4000 in
/-- V13: `02 06 48 69 C5 04`, answer 6. -/
theorem test_enc_end : view (exec .encEnd { small with enc := openHi }) (fun t => (t.enc, t.resp)) =
    some (closedHi 0#8, ok 0x06#8) := by decide
theorem test_enc_end_closed : view (exec .encEnd { small with enc := closedHi 2#8 }) (fun t => (t.enc, t.resp)) =
    some (closedHi 2#8, no 0x00#8) := by decide
theorem test_enc_avail : view (exec .encAvail { small with enc := closedHi 2#8 }) State.resp = some (ok 0x04#8) := by decide
theorem test_enc_avail_open : view (exec .encAvail { small with enc := openHi }) State.resp = some (ok 0x00#8) := by decide
theorem test_enc_read_last : view (exec .encRead { small with enc := closedHi 5#8 }) (fun t => (t.enc.cur, t.resp)) =
    some (6#8, ok 0x04#8) := by decide
theorem test_enc_read_no_data : view (exec .encRead { small with enc := closedHi 6#8 }) (fun t => (t.enc.cur, t.resp)) =
    some (6#8, no 0x00#8) := by decide
theorem test_enc_pktlen_open : view (exec .encPktlen { small with enc := openHi }) State.resp = some (ok 0x06#8) := by decide
theorem test_enc_pktlen_closed : view (exec .encPktlen { small with enc := closedHi 0#8 }) State.resp = some (ok 0x06#8) := by decide

/-! ### DEC unit (V18, V20, V23) -/

theorem test_dec_reset : view (exec .decReset { small with dec := tooLong }) (fun t => (t.dec.phase, t.dec.err, t.resp)) =
    some (.idle, .noError, ok 0x00#8) := by decide
set_option maxRecDepth 4000 in
/-- V18: the last byte of `02 06 48 69 C5 04`. -/
theorem test_dec_write_accepts : view (exec (.decWrite 0x04#8) { small with dec := almostHi }) (fun t => (t.dec, t.resp)) =
    some (doneHi 0#8, ok 0x00#8) := by decide
/-- R155 document rule 4: a wrong terminal byte. -/
theorem test_dec_write_no_terminator : view (exec (.decWrite 0x05#8) { small with dec := almostHi }) (fun t => (t.dec.err, t.dec.isOpen, t.dec.total, t.resp)) =
    some (.invalidLength, false, 6#8, no 0x00#8) := by decide
theorem test_dec_avail : view (exec .decAvail { small with dec := doneHi 1#8 }) State.resp = some (ok 0x01#8) := by decide
theorem test_dec_avail_open : view (exec .decAvail { small with dec := almostHi }) State.resp = some (ok 0x00#8) := by decide
theorem test_dec_read : view (exec .decRead { small with dec := doneHi 1#8 }) (fun t => (t.dec.ridx, t.resp)) =
    some (2#8, ok 0x69#8) := by decide
theorem test_dec_read_no_data : view (exec .decRead { small with dec := doneHi 2#8 }) (fun t => (t.dec.ridx, t.resp)) =
    some (2#8, no 0x00#8) := by decide
theorem test_dec_isopen : view (exec .decIsopen { small with dec := almostHi }) State.resp = some (ok 0x01#8) := by decide
theorem test_dec_haserr : view (exec .decHaserr { small with dec := tooLong }) State.resp = some (ok 0x01#8) := by decide
theorem test_dec_lasterr : view (exec .decLasterr { small with dec := { tooLong with err := .invalidChecksum } }) State.resp =
    some (ok 0x02#8) := by decide
theorem test_dec_totlen : view (exec .decTotlen { small with dec := tooLong }) State.resp = some (ok 0x01#8) := by decide

/-! ### REQ unit (R191 to R206, S1 to S4) -/

theorem test_req_set_addr : view (exec (.reqSetAddr 0x04#8) small) (fun t => (t.req.addr, t.resp)) = some (0x04#8, ok 0x00#8) := by
  decide
theorem test_req_set_resplen : view (exec (.reqSetResplen 32#8) small) (fun t => (t.req.resplen, t.resp)) =
    some (0x20#8, ok 0x00#8) := by decide
theorem test_req_set_delay_lo : view (exec (.reqSetDelayLo 0x0A#8) { small with req := { small.req with delay := 0x0100#16 } })
    (fun t => t.req.delay) = some 0x010A#16 := by decide
theorem test_req_set_delay_hi : view (exec (.reqSetDelayHi 0x01#8) { small with req := { small.req with delay := 0x000A#16 } })
    (fun t => t.req.delay) = some 0x010A#16 := by decide
theorem test_req_set_attempts : view (exec (.reqSetAttempts 3#8) small) (fun t => (t.req.maxatt, t.resp)) =
    some (3#8, ok 0x00#8) := by decide
theorem test_req_start : view (exec .reqStart (gotHi 0#8)) (fun t => (t.req.state, t.req.needtrig, t.req.rxlen, t.req.status, t.resp)) =
    some (.check, true, 0#8, .noStatus, none) := by decide
theorem test_req_status : view (exec .reqStatus { small with req := { small.req with status := .attemptsExhausted } }) State.resp =
    some (ok 0x04#8) := by decide
theorem test_req_avail : view (exec .reqAvail (gotHi 1#8)) State.resp = some (ok 0x01#8) := by decide
theorem test_req_read : view (exec .reqRead (gotHi 0#8)) (fun t => (t.req.rxcur, t.resp)) = some (1#8, ok 0x48#8) := by decide
theorem test_req_read_no_data : view (exec .reqRead (gotHi 2#8)) (fun t => (t.req.rxcur, t.resp)) = some (2#8, no 0x00#8) := by decide

/-- R198: the trigger of scenario S1, event by event. -/
theorem test_trig_events : view (runFrom 6 (running .trig 0#8 3#8 true false false Decoder.reset)) (fun t => (t.trace, t.req.needtrig, t.req.state)) =
    some ([.txBegin 0x04#8, .txWrite 0x02#8, .txWrite 0x04#8, .txWrite 0x61#8, .txWrite 0x04#8, .txEnd], false, .wait) := by decide
/-- R280: a hardware reset after `TxBegin` and two bytes; these stay, and the rest never goes out. -/
theorem test_reset_inside_a_trigger :
    ((after (runFrom 3 (running .trig 0#8 3#8 true false false Decoder.reset))).bind
      (fun t => view (step { t with resetPin := true }) (fun u => (u.trace, u.req.state, u.req.trigSent)))) =
    some ([.txBegin 0x04#8, .txWrite 0x02#8, .txWrite 0x04#8], .idle, 0) := by decide
/-- R199 on the third attempt: 10 * 3. -/
theorem test_wait_is_linear : view (step { running .wait 2#8 3#8 false false false Decoder.reset with envDone := 1 })
    (fun t => (t.trace, t.req.state, t.envDone)) = some ([.wait 30], .poll, 0) := by decide
/-- R200, S4: an empty answer. -/
theorem test_poll_empty : view (step { running .poll 0#8 3#8 false false false Decoder.reset with envPolls := [[]] })
    (fun t => (t.req.status, t.req.state, t.resp)) = some (.peerNotFound, .idle, no 0x02#8) := by decide
/-- R201: the payload of a verified frame reaches the receive buffer. -/
theorem test_eval_success : view (step (running .eval 0#8 3#8 false false false (doneHi 0#8)))
    (fun t => (t.req.rxbuf, t.req.rxlen, t.req.status, t.resp)) =
    some ([(0, 0x48#8), (1, 0x69#8)], 2#8, .packetRead, ok 0x01#8) := by decide
/-- R202 with the last iteration in error. -/
theorem test_exhausted_packet_error : view (step (running .check 3#8 3#8 true true false Decoder.reset))
    (fun t => (t.req.status, t.resp)) = some (.packetError, no 0x03#8) := by decide

/-! ### The port, reset and the host's two functions -/

theorem test_illegal_word_changes_nothing : view (step (given 0x2201#16)) id =
    some { small with resp := some (respWord true false 0x00#8) } := by decide
theorem test_hardware_reset : view (step { given 0x1000#16 with resetPin := true, crcAcc := 5#8, enc := closedHi 1#8 }) id =
    some (given 0x1000#16) := by decide
theorem test_with_fetch_word_runs : view (step (State.reset.withFetchWord 16 0x12FF)) (fun t => (t.crcAcc, t.resp)) =
    some (0x35#8, ok 0x35#8) := by decide

/-! ### Witnesses: for each obligation with hypotheses, concrete states and operands that meet them together

One theorem per obligation; where its clauses have conditions of their own, one conjunct per clause, at the boundary. -/

theorem witness_DecodeOfEncodeIsTheCommand : Instr.wellFormed .encEnd = true ∧ Instr.wellFormed (.decWrite 0xFF#8) = true := by decide
theorem witness_EncodeOfDecodeIsTheWord : decode 0x48FF#16 ≠ .instr .reqRead ∧ decode 0x4800#16 = .instr .reqRead := by decide
theorem witness_IllegalWordsAreThoseOutsideTheMap :
    (opcodeKnown 0x49#8 = false ∧ opcodeKnown 0x48#8 = true) ∧
    (opcodeKnown 0x22#8 = true ∧ opcodeTakesByte 0x22#8 = false ∧ (0x01#8 : Byte) ≠ 0#8) ∧ wordLegal 0x21FF#16 = true := by decide
theorem witness_StepRunsTheDecodedCommand :
    (given 0x2148#16).Ready ∧ (given 0x2148#16).hostCmds = 0x2148#16 :: [] ∧ decode 0x2148#16 = .instr (.encWrite 0x48#8) :=
  ⟨⟨rfl, rfl⟩, rfl, by decide⟩
theorem witness_IllegalWordIsAnsweredIllegal :
    ((given 0x4900#16).Ready ∧ (given 0x4900#16).hostCmds = 0x4900#16 :: [] ∧ wordLegal 0x4900#16 = false) ∧
    ((given 0x2201#16).Ready ∧ (given 0x2201#16).hostCmds = 0x2201#16 :: [] ∧ wordLegal 0x2201#16 = false) :=
  ⟨⟨⟨rfl, rfl⟩, rfl, by decide⟩, ⟨⟨rfl, rfl⟩, rfl, by decide⟩⟩
theorem witness_NothingChangesBetweenCommands : small.Ready ∧ small.hostCmds = [] := ⟨⟨rfl, rfl⟩, rfl⟩
theorem witness_HardwareResetGivesTheResetTable :
    ({ running .poll 1#8 3#8 false true true tooLong with resetPin := true } : State).resetPin = true := rfl
theorem witness_PortIsStalledWhileARequestRuns :
    let s := { running .check 0#8 3#8 true false false Decoder.reset with hostCmds := [0x1000#16] }
    s.resetPin = false ∧ s.req.state ≠ .idle ∧ ∃ t, step s = .next t := ⟨rfl, by decide, _, rfl⟩
theorem witness_UnitsAreIsolated :
    (Instr.unit .encReset ≠ .crc ∧ Instr.unit .encReset ≠ .dec ∧ Instr.unit .encReset ≠ .req ∧ ∃ t, exec .encReset small = .next t) ∧
    (Instr.unit .reqStart ≠ .enc ∧ ∃ t, exec .reqStart small = .next t) := ⟨⟨by decide, by decide, by decide, _, rfl⟩, by decide, _, rfl⟩
theorem witness_EveryCommandAnswersOneResponse :
    (∃ t, exec .reqStart small = .next t ∧ t.resp = none) ∧
    (∃ t, exec .encPktlen small = .next t ∧ t.resp = some (respWord false true 0x04#8) ∧ mayReject .encPktlen = false) ∧
    (∃ t, exec .encRead small = .next t ∧ t.resp = some (respWord false false 0x00#8) ∧ mayReject .encRead = true) :=
  ⟨⟨_, rfl, rfl⟩, ⟨_, rfl, rfl, rfl⟩, ⟨_, rfl, rfl, rfl⟩⟩
/-- A rejected `ENC_WRITE`, and the `DEC_WRITE` whose `f = 0` records the error that it sets. -/
theorem witness_RejectedCommandsChangeNothing :
    (∃ t, exec (.encWrite 0x01#8) (State.resetWith 0) = .next t ∧ t.resp = some (respWord false false 0x00#8)) ∧
    (∃ t, exec (.decWrite 0x05#8) { small with dec := almostHi } = .next t ∧ t.resp = some (respWord false false 0x00#8) ∧
      t.dec.err ≠ .noError) := ⟨⟨_, rfl, rfl⟩, ⟨_, rfl, rfl, by decide⟩⟩
theorem witness_QueriesChangeOnlyTheResponse : Instr.encAvail ∈ queryCommands ∧ Instr.crcRead ∈ queryCommands := by decide
theorem witness_FlagsChangeOnlyUnderTheirCommands :
    (∃ t, exec .encReset { small with enc := closedHi 0#8 } = .next t ∧ t.enc.isOpen ≠ (closedHi 0#8).isOpen) ∧
    (∃ t, exec (.decWrite 0x05#8) { small with dec := almostHi } = .next t ∧ t.dec.isOpen ≠ almostHi.isOpen ∧ t.dec.err ≠ almostHi.err) ∧
    (∃ t, exec .decReset { small with dec := tooLong } = .next t ∧ t.dec.err ≠ tooLong.err) ∧
    (∃ t, exec .reqStart small = .next t ∧ t.req.needtrig ≠ small.req.needtrig) :=
  ⟨⟨_, rfl, by decide⟩, ⟨_, rfl, by decide, by decide⟩, ⟨_, rfl, by decide⟩, ⟨_, rfl, by decide⟩⟩
theorem witness_SingleBitFlipChangesTheChecksum : 0 < 8 ∧ 7 < 8 := by decide

/-- Capacity 8: `enc_total = 5` takes one more byte, `enc_total = 6` none, a closed encoder none. -/
theorem witness_EncWriteAppendsOrRejects :
    let e5 : Encoder := { openHi with cur := 5#8, total := 5#8 }
    let e6 : Encoder := { openHi with cur := 6#8, total := 6#8 }
    (e5.isOpen = true ∧ e5.total.toNat + 1 ≤ small.cap - 2 ∧ e5.cur.toNat < small.cap) ∧
    ¬(e6.isOpen = true ∧ e6.total.toNat + 1 ≤ small.cap - 2) ∧
    ¬((closedHi 0#8).isOpen = true ∧ (closedHi 0#8).total.toNat + 1 ≤ small.cap - 2) := by decide

/-- The empty payload, and the full one at capacity 6. -/
theorem witness_EncEndFinalizesOrIsIgnored :
    (Encoder.reset.isOpen = true ∧ 2 ≤ Encoder.reset.total.toNat ∧ Encoder.reset.total.toNat ≤ small.cap - 2 ∧
      loadRange small.cap Encoder.reset.buf 2 (Encoder.reset.total.toNat - 2) = .ok []) ∧
    (openHi.isOpen = true ∧ 2 ≤ openHi.total.toNat ∧ openHi.total.toNat ≤ (State.resetWith 2).cap - 2 ∧
      loadRange (State.resetWith 2).cap openHi.buf 2 (openHi.total.toNat - 2) = .ok [0x48#8, 0x69#8]) ∧
    (closedHi 0#8).isOpen = false := ⟨⟨rfl, by decide, by decide, rfl⟩, ⟨rfl, by decide, by decide, rfl⟩, rfl⟩
theorem witness_EncEndLeavesTheWholeFrame :
    openHi.isOpen = true ∧ 2 ≤ openHi.total.toNat ∧ openHi.total.toNat ≤ (State.resetWith 2).cap - 2 ∧
    openHi.buf.read 0 = some Config.startByte ∧
    loadRange (State.resetWith 2).cap openHi.buf 2 (openHi.total.toNat - 2) = .ok [0x48#8, 0x69#8] :=
  ⟨rfl, by decide, by decide, by decide, rfl⟩
theorem witness_EncQueriesAnswerTheirCounts : openHi.isOpen = true ∧ (closedHi 6#8).isOpen = false := ⟨rfl, rfl⟩
theorem witness_PacketLengthIsTheSameAcrossEnd :
    (∃ t, exec .encEnd { small with enc := openHi } = .next t) ∧ (∃ t, exec .encEnd { small with enc := closedHi 0#8 } = .next t) :=
  ⟨⟨_, rfl⟩, ⟨_, rfl⟩⟩
/-- The last byte, the cursor at the end, and an open encoder. -/
theorem witness_EncReadConsumesOrAnswersNoData :
    ((closedHi 5#8).isOpen = false ∧ (closedHi 5#8).cur.toNat < (closedHi 5#8).total.toNat ∧ (closedHi 5#8).cur.toNat < small.cap ∧
      (closedHi 5#8).buf.read 5 = some 0x04#8) ∧
    ¬((closedHi 6#8).isOpen = false ∧ (closedHi 6#8).cur.toNat < (closedHi 6#8).total.toNat) ∧
    ¬(openHi.isOpen = false ∧ openHi.cur.toNat < openHi.total.toNat) := by decide

/-- The encoder invariant of an open and of a closed encoder. -/
theorem openHi_inv : openHi.Inv 8 := by
  refine ⟨by decide, fun _ => ⟨by decide, by decide, by decide, fun i h1 h2 => ?_⟩, fun h => absurd h (by decide)⟩
  have h2' : i < 4 := h2
  obtain rfl | rfl : i = 2 ∨ i = 3 := by omega
  all_goals decide
set_option maxRecDepth 4000 in
theorem closedHi_inv : (closedHi 0#8).Inv 8 := by
  refine ⟨by decide, fun h => absurd h (by decide), fun _ => ⟨by decide, by decide, by decide, by decide, by decide, ?_, [0x06#8, 0x48#8, 0x69#8], rfl, rfl⟩⟩
  show ∀ i, i < 6 → _
  decide
theorem witness_EncoderInvariantIsKept :
    (∃ t, ({ given 0x2200#16 with enc := openHi } : State).enc.Inv small.cap ∧ step { given 0x2200#16 with enc := openHi } = .next t) ∧
    (∃ t, ({ given 0x2400#16 with enc := closedHi 0#8 } : State).enc.Inv small.cap ∧
      step { given 0x2400#16 with enc := closedHi 0#8 } = .next t) :=
  ⟨⟨_, openHi_inv, rfl⟩, ⟨_, closedHi_inv, rfl⟩⟩

/-- R165's rows in order at capacity 8: a length byte of 8 and of 9; a payload byte one before the terminal position; the
terminal position reached by a declared length of 0 (a total of 3) and of 6 with a wrong byte, a wrong checksum and a right one. -/
theorem witness_DecoderFollowsTheTransitionTable :
    let L : Decoder := { Decoder.reset with isOpen := true, total := 1#8 }
    let P : Decoder := { almostHi with widx := 2#8, total := 4#8 }
    let Z : Decoder := { Decoder.reset with isOpen := true, total := 2#8 }
    let X : Decoder := { almostHi with buf := [(0, 0x48#8), (1, 0x69#8), (2, 0xC4#8)] }
    8 = Config.capOf 4 ∧ Decoder.reset.phase = .idle ∧
    (L.phase = .collectingLength ∧ (8#8 : Byte).toNat ≤ 8 ∧ 8 < (9#8 : Byte).toNat) ∧
    (P.phase = .collectingPayload ∧ (P.total.toNat : Int) < (P.explen.toNat : Int) - 1 ∧ P.widx.toNat < 8) ∧
    (Z.phase = .collectingPayload ∧ (Z.explen.toNat : Int) - 1 ≤ (Z.total.toNat : Int) ∧ Z.total.toNat + 1 < 4) ∧
    (almostHi.phase = .collectingPayload ∧ (almostHi.explen.toNat : Int) - 1 ≤ (almostHi.total.toNat : Int) ∧
      4 ≤ almostHi.total.toNat + 1 ∧ almostHi.total.toNat < 8 ∧ almostHi.total.toNat - 3 = 2) ∧
    X.phase = .collectingPayload ∧ (doneHi 0#8).phase = .closedOk ∧ tooLong.phase = .closedErr := by decide
set_option maxRecDepth 4000 in
theorem witness_DecoderFollowsTheTransitionTable_checksum :
    loadRange 8 almostHi.buf 0 2 = .ok [0x48#8, 0x69#8] ∧ load 8 almostHi.buf 2 = .ok 0xC5#8 ∧
    crc8Seq 0x00#8 [0x06#8, 0x48#8, 0x69#8] = 0xC5#8 ∧ crc8Seq 0x00#8 [0x06#8, 0x48#8, 0x69#8] ≠ 0xC4#8 :=
  ⟨rfl, rfl, rfl, by decide⟩

/-- The decoder invariant of an idle, an open, a failed and a verified record. -/
theorem reset_dec_inv (cap : Nat) : Decoder.reset.Inv cap := by
  refine ⟨⟨Nat.zero_le _, fun h => absurd h (by decide)⟩, fun h => absurd h (by decide), fun h => absurd h (by decide),
    ⟨Nat.zero_le _, [], Decoder.since_reset cap, Nat.zero_le _, fun i h => absurd h (Nat.not_lt_zero i)⟩,
    fun h => absurd h (by decide), fun _ => ⟨rfl, rfl, rfl⟩⟩
theorem almostHi_inv : almostHi.Inv 8 := by
  refine ⟨⟨by decide, fun _ => by decide⟩, fun _ => ⟨rfl, by decide, by decide⟩, fun _ _ => ⟨by decide, by decide⟩,
    ⟨by decide, [0x02#8, 0x06#8, 0x48#8, 0x69#8, 0xC5#8], ⟨Decoder.reset, rfl⟩, by decide, ?_⟩, fun h => absurd h (by decide),
    fun h => absurd h (by decide)⟩
  show ∀ i, i < 3 → _
  decide
theorem tooLong_inv : tooLong.Inv 8 := by
  refine ⟨⟨by decide, fun h => absurd h (by decide)⟩, fun h => absurd h (by decide), fun h => absurd h (by decide),
    ⟨by decide, [0x02#8, 0x09#8], ⟨Decoder.reset, rfl⟩, by decide, fun i h => absurd h (Nat.not_lt_zero i)⟩, fun h => absurd h (by decide), fun h => absurd h (by decide)⟩
set_option maxRecDepth 4000 in
theorem doneHi_inv : (doneHi 0#8).Inv 8 := by
  refine ⟨⟨by decide, fun _ => by decide⟩, fun h => absurd h (by decide), fun h => absurd h (by decide),
    ⟨by decide, [0x02#8, 0x06#8, 0x48#8, 0x69#8, 0xC5#8, 0x04#8], ⟨Decoder.reset, rfl⟩, by decide, ?_⟩,
    fun _ => ⟨rfl, by decide, rfl, rfl, by decide, [0x48#8, 0x69#8], rfl, rfl⟩, fun h => absurd h (by decide)⟩
  show ∀ i, i < 3 → _
  decide
theorem witness_DecWriteRunsTheTransition : ({ small with dec := almostHi } : State).dec.Inv small.cap := almostHi_inv
theorem witness_DecQueriesAnswerTheRecord :
    ((doneHi 2#8).isOpen = false ∧ (doneHi 2#8).err = .noError ∧ 0 < (doneHi 2#8).total.toNat) ∧
    ¬(almostHi.isOpen = false ∧ almostHi.err = .noError ∧ 0 < almostHi.total.toNat) ∧
    tooLong.err = .invalidLength ∧ ({ tooLong with err := .invalidChecksum } : Decoder).err = .invalidChecksum := by decide
/-- The last payload byte, the cursor at the end, an open record. -/
theorem witness_DecReadConsumesOrAnswersNoData :
    ((doneHi 1#8).isOpen = false ∧ (doneHi 1#8).err = .noError ∧ 0 < (doneHi 1#8).total.toNat ∧
      (doneHi 1#8).ridx.toNat < (doneHi 1#8).paylen.toNat ∧ (doneHi 1#8).ridx.toNat < small.cap ∧
      (doneHi 1#8).buf.read 1 = some 0x69#8) ∧
    ¬((doneHi 2#8).isOpen = false ∧ (doneHi 2#8).err = .noError ∧ 0 < (doneHi 2#8).total.toNat ∧
      (doneHi 2#8).ridx.toNat < (doneHi 2#8).paylen.toNat) ∧
    ¬(almostHi.isOpen = false ∧ almostHi.err = .noError ∧ 0 < almostHi.total.toNat ∧
      almostHi.ridx.toNat < almostHi.paylen.toNat) := by decide
set_option maxRecDepth 4000 in
theorem witness_DecoderInvariantIsKept :
    (∃ t, ({ given 0x3104#16 with dec := almostHi } : State).dec.Inv small.cap ∧ step { given 0x3104#16 with dec := almostHi } = .next t) ∧
    (∃ t, ({ given 0x3102#16 with dec := tooLong } : State).dec.Inv small.cap ∧ step { given 0x3102#16 with dec := tooLong } = .next t) ∧
    (∃ t, ({ given 0x3300#16 with dec := doneHi 0#8 } : State).dec.Inv small.cap ∧ step { given 0x3300#16 with dec := doneHi 0#8 } = .next t) :=
  ⟨⟨_, almostHi_inv, rfl⟩, ⟨_, tooLong_inv, rfl⟩, ⟨_, doneHi_inv, rfl⟩⟩
theorem witness_RecordedErrorIsSticky :
    tooLong.err ≠ .noError ∧ (∃ t, exec (.decWrite 0x02#8) { small with dec := tooLong } = .next t) ∧
    (Instr.decWrite 0x02#8 ≠ .decReset) ∧ ∃ t, exec .decReset { small with dec := tooLong } = .next t :=
  ⟨by decide, ⟨_, rfl⟩, by decide, ⟨_, rfl⟩⟩
theorem witness_NoiseAndTrailingBytesAreIgnored :
    (Decoder.reset.phase = .idle ∧ ∀ b ∈ [0x00#8, 0x01#8, 0x03#8, 0x04#8, 0xFF#8], b ≠ Config.startByte) ∧
    (doneHi 0#8).phase = .closedOk := by decide
/-- The smallest capacity with the empty payload, and the largest capacity. -/
theorem witness_DecoderAcceptsExactlyFrames : 4 = Config.capOf 0 ∧ 255 = Config.capOf 251 := by decide
theorem witness_EncodeThenDecodeGivesThePayload :
    (4 = Config.capOf 0 ∧ ([] : List Byte).length ≤ 4 - 4) ∧
    (255 = Config.capOf 251 ∧ (List.replicate 251 (0x02#8 : Byte)).length ≤ 255 - 4) := by
  refine ⟨by decide, by decide, ?_⟩
  rw [List.length_replicate]

/-- The last attempt with and without a trigger, and the attempts used up after an error and after an incomplete frame; with
`req_maxatt = 0` at once. -/
theorem witness_CheckStepChoosesOrFinishes :
    let a := running .check 2#8 3#8 true true false Decoder.reset
    let b := running .check 0#8 1#8 false false false Decoder.reset
    let c := running .check 3#8 3#8 true true false Decoder.reset
    let d := running .check 0#8 0#8 true false false Decoder.reset
    (a.Running .check ∧ a.req.attempt.toNat < a.req.maxatt.toNat ∧ a.req.needtrig = true) ∧
    (b.Running .check ∧ b.req.attempt.toNat < b.req.maxatt.toNat ∧ b.req.needtrig = false) ∧
    (c.Running .check ∧ c.req.maxatt.toNat ≤ c.req.attempt.toNat ∧ c.req.lasterr = true) ∧
    (d.Running .check ∧ d.req.maxatt.toNat ≤ d.req.attempt.toNat ∧ d.req.lasterr = false) := by
  unfold State.Running; decide
theorem witness_TrigStepSendsTheTriggerFrame :
    (running .trig 0#8 1#8 true false false Decoder.reset).Running .trig ∧
    (running .trig 0#8 1#8 true false false Decoder.reset).req.trigSent = 0 := by
  unfold State.Running; decide
/-- No event out, and all but the last. -/
theorem witness_ResetMayFallInsideATrigger :
    let a := running .trig 0#8 1#8 true false false Decoder.reset
    let b := { a with req := { a.req with trigSent := 5 } }
    (a.Running .trig ∧ a.req.trigSent.val < 5) ∧ (b.Running .trig ∧ b.req.trigSent.val = 5) := by
  unfold State.Running; decide
/-- The event fresh and already out, without an answer and with the last one. -/
theorem witness_WaitStepEmitsTheBackoff :
    let a := running .wait 0#8 1#8 false false false Decoder.reset
    let b := { running .wait 0#8 1#8 false false true Decoder.reset with envDone := 1, trace := [.wait 10] }
    (a.Running .wait ∧ a.req.awaiting = false ∧ a.envDone = 0) ∧ (b.Running .wait ∧ b.req.awaiting = true ∧ b.envDone = 0 + 1) := by
  unfold State.Running; decide
theorem witness_PollStepTakesTheAnswer :
    let a := running .poll 0#8 1#8 false false false Decoder.reset
    let b := { running .poll 0#8 1#8 false false true Decoder.reset with envPolls := [[]] }
    let c := { running .poll 0#8 1#8 false false false Decoder.reset with envPolls := [[0x02#8, 0x09#8]] }
    (a.Running .poll ∧ a.envPolls = []) ∧ (b.Running .poll ∧ b.envPolls = [] :: []) ∧
    (c.Running .poll ∧ c.envPolls = (0x02#8 :: [0x09#8]) :: [] ∧ c.req.rdec.feed c.cap (0x02#8 :: [0x09#8]) = .ok tooLong) :=
  ⟨⟨⟨rfl, rfl, by decide⟩, rfl⟩, ⟨⟨rfl, rfl, by decide⟩, rfl⟩, ⟨⟨rfl, rfl, by decide⟩, rfl, rfl⟩⟩
/-- A verified frame that fills the receive buffer (capacity 6), a recorded error, an incomplete frame. -/
theorem witness_EvalStepDecides :
    let a := { running .eval 0#8 1#8 false false false (doneHi 0#8) with maxPayload := 2 }
    let b := running .eval 0#8 1#8 false false false tooLong
    let c := running .eval 0#8 1#8 false false false almostHi
    (a.Running .eval ∧ a.req.rdec.doneOk = true ∧ a.req.rdec.paylen.toNat ≤ a.cap - 4 ∧
      loadRange a.cap a.req.rdec.buf 0 a.req.rdec.paylen.toNat = .ok [0x48#8, 0x69#8]) ∧
    (b.Running .eval ∧ b.req.rdec.err ≠ .noError) ∧
    (c.Running .eval ∧ c.req.rdec.doneOk = false ∧ c.req.rdec.err = .noError) :=
  ⟨⟨⟨rfl, rfl, by decide⟩, by decide, by decide, rfl⟩, ⟨⟨rfl, rfl, by decide⟩, by decide⟩, ⟨⟨rfl, rfl, by decide⟩, by decide, rfl⟩⟩
/-- The last byte, and the cursor at the end. -/
theorem witness_ReqReadOutCommandsAnswer :
    ((gotHi 1#8).req.rxcur.toNat < (gotHi 1#8).req.rxlen.toNat ∧ (gotHi 1#8).req.rxcur.toNat < (gotHi 1#8).cap - 4 ∧
      (gotHi 1#8).req.rxbuf.read 1 = some 0x69#8) ∧
    (gotHi 2#8).req.rxlen.toNat ≤ (gotHi 2#8).req.rxcur.toNat := by decide
theorem witness_ConfigurationHoldsItsValue :
    [0x4004#16, 0x4120#16, 0x4403#16, 0x420A#16, 0x4301#16].all (fun w =>
      !(given w).resetPin && decide (view (step (given w)) (fun t => t.req) ≠ some (given w).req)) = true := by decide

/-- The requester invariant of a ready block and of one in the middle of a request. -/
theorem idle_req_inv (m : Byte) : ({ small.req with maxatt := m } : Requester).Inv 8 := by
  have hi : small.req.state = .idle := rfl
  have hs : small.req.status = .noStatus := rfl
  have ha : small.req.awaiting = false := rfl
  have ht : small.req.trigSent = 0 := rfl
  refine ⟨reset_dec_inv 8, ⟨Nat.le_refl _, Nat.zero_le _⟩, fun _ => rfl, ?_⟩
  simp [hi, hs, ha, ht]
theorem eval_req_inv : (running .eval 0#8 1#8 false false false (doneHi 0#8)).req.Inv 8 := by
  refine ⟨doneHi_inv, by decide, fun _ => rfl, fun h => absurd h (by decide), fun _ => by decide, fun _ => by decide, ?_,
    fun h => absurd h (by decide), fun _ => rfl, fun h => absurd h (by decide), fun h => absurd rfl h⟩
  rintro (h | h | h | h) <;> cases h
theorem witness_RequesterInvariantIsKept :
    (∃ t, (given 0x4500#16).req.Inv small.cap ∧ step (given 0x4500#16) = .next t) ∧
    (∃ t, (running .eval 0#8 1#8 false false false (doneHi 0#8)).req.Inv small.cap ∧
      step (running .eval 0#8 1#8 false false false (doneHi 0#8)) = .next t) :=
  ⟨⟨_, idle_req_inv 0#8, rfl⟩, ⟨_, eval_req_inv, rfl⟩⟩

/-- A request on its last attempt; and an idle block after a request that made one attempt, given `REQ_SET_ATTEMPTS 1`, which
keeps R52's first clause, and `REQ_SET_ATTEMPTS 0`, which does not (log 12). -/
def attempted (w : CmdWord) : State := { given w with req := { small.req with maxatt := 1#8, attempt := 1#8 } }
theorem attempted_req_inv (w : CmdWord) : (attempted w).req.Inv 8 := by
  have hi : small.req.state = .idle := rfl
  have hs : small.req.status = .noStatus := rfl
  have ha : small.req.awaiting = false := rfl
  have ht : small.req.trigSent = 0 := rfl
  refine ⟨reset_dec_inv 8, ⟨Nat.le_refl _, Nat.zero_le _⟩, fun _ => rfl, ?_⟩
  simp [attempted, hi, hs, ha, ht]
theorem witness_AttemptsStayWithinTheMaximum :
    (∃ t, (running .eval 0#8 1#8 false false false (doneHi 0#8)).req.Inv small.cap ∧
      (running .eval 0#8 1#8 false false false (doneHi 0#8)).req.attempt.toNat ≤ 1 ∧
      step (running .eval 0#8 1#8 false false false (doneHi 0#8)) = .next t) ∧
    (∃ t, (attempted 0x4401#16).req.Inv small.cap ∧ (attempted 0x4401#16).req.attempt.toNat ≤ (attempted 0x4401#16).req.maxatt.toNat ∧
      step (attempted 0x4401#16) = .next t ∧ t.req.attempt.toNat ≤ t.req.maxatt.toNat) ∧
    (∃ t, (attempted 0x4400#16).req.Inv small.cap ∧ (attempted 0x4400#16).req.attempt.toNat ≤ (attempted 0x4400#16).req.maxatt.toNat ∧
      step (attempted 0x4400#16) = .next t ∧ t.req.maxatt.toNat < t.req.attempt.toNat) :=
  ⟨⟨_, eval_req_inv, by decide, rfl⟩, ⟨_, attempted_req_inv _, by decide, rfl, by decide⟩, ⟨_, attempted_req_inv _, by decide, rfl, by decide⟩⟩

/-- A ready block with one attempt configured, one answer of each kind, and `REQ_START` on the port. -/
def starting : State :=
  { given 0x4500#16 with req := { small.req with maxatt := 1#8 }, envDone := 1, envPolls := [[0x02#8, 0x04#8, 0x61#8, 0x04#8]] }

theorem small_buffers_sound : small.BuffersSound := ⟨⟨rfl, rfl⟩, ⟨rfl, rfl⟩, ⟨rfl, rfl⟩, ⟨rfl, rfl⟩⟩
theorem small_enc_inv : small.enc.Inv 8 := by
  refine ⟨by decide, fun _ => ⟨rfl, by decide, by decide, fun i h1 h2 => ?_⟩, fun h => absurd h (by decide)⟩
  have h2' : i < 2 := h2
  omega
theorem starting_inv : starting.Inv :=
  ⟨small_buffers_sound, small_enc_inv, reset_dec_inv 8, idle_req_inv 1#8, fun h => absurd rfl h, fun _ h => nomatch h⟩
theorem witness_RequestMatchesTheBigStep :
    starting.Inv ∧ starting.Ready ∧ starting.hostCmds = 0x4500#16 :: [] ∧ starting.req.maxatt.toNat ≤ starting.envDone ∧
    starting.req.maxatt.toNat ≤ starting.envPolls.length := ⟨starting_inv, ⟨rfl, rfl⟩, rfl, by decide, by decide⟩
/-- An answer that declares a length above capacity 8 leaves an error in every reset record; the trigger frame, which is the
frame of the empty payload, leaves a verified one; with `m = 2`, `m = 1` and `m = 1`. -/
theorem witness_RequestOutcomesByAnswers :
    (∀ a ∈ [[0x02#8, 0x09#8]], a ≠ [] ∧ ∀ D0 : Decoder, ∃ D1, D0.clear.feed 8 a = .ok D1 ∧ D1.err ≠ .noError) ∧
    ([[(0x02#8 : Byte), 0x09#8]].length < 2 ∧ [(0x02#8 : Byte), 0x04#8, 0x61#8, 0x04#8] ≠ []) ∧
    (∀ D0 : Decoder, ∃ D1, D0.clear.feed 8 [0x02#8, 0x04#8, 0x61#8, 0x04#8] = .ok D1 ∧ D1.doneOk = true ∧
      loadRange 8 D1.buf 0 D1.paylen.toNat = .ok []) ∧
    (0 < 1 ∧ [[(0x02#8 : Byte), 0x09#8]].length = 1) := by
  refine ⟨?_, by decide, fun D0 => ?_, by decide⟩
  · intro a ha
    obtain rfl : a = [0x02#8, 0x09#8] := by simpa using ha
    exact ⟨by decide, fun D0 => ⟨_, rfl, nofun⟩⟩
  · refine ⟨{ D0.clear with
      buf := D0.buf.write 0 0x61#8, widx := 1#8, total := 4#8, explen := 4#8, paylen := 0#8, isOpen := false }, ?_, rfl, rfl⟩
    have h : load 8 (D0.buf.write 0 0x61#8) 0 = .ok 0x61#8 := load_of_read (by decide) (Memory.read_write_same _ _ _)
    simp [Decoder.feed, Decoder.write, Decoder.hasErr, Decoder.clear, Config.startByte, Decoder.takeLength, Decoder.beforeTerminal,
      Decoder.takePayload, storePostInc, store, bump, toByte, Decoder.takeTerminal, Config.endByte, Decoder.verify, loadRange, h, show crc8Seq 0#8 [4#8] = 97#8 by decide]
theorem witness_RequestPollsAndWaitsAreBounded :
    (∃ r, request 8 0x04#8 0x08#8 10#16 2 Decoder.reset [[0x02#8, 0x09#8], [0x02#8, 0x09#8]] = .ok (some r) ∧ r.status = .packetError) ∧
    (∃ r, request 8 0x04#8 0x08#8 10#16 0 Decoder.reset [] = .ok (some r) ∧ r.status = .attemptsExhausted) :=
  ⟨⟨_, rfl, rfl⟩, ⟨_, rfl, rfl⟩⟩
theorem witness_UnansweredRequestStaysStuck :
    let a := running .wait 0#8 1#8 false false true Decoder.reset
    let b := running .poll 0#8 1#8 false false true Decoder.reset
    (a.resetPin = false ∧ a.req.awaiting = true ∧ a.req.state = .wait ∧ a.envDone = 0) ∧
    (b.resetPin = false ∧ b.req.awaiting = true ∧ b.req.state = .poll ∧ b.envPolls = []) := by decide
theorem witness_BuffersStaySound : ∃ t, (given 0x2148#16).BuffersSound ∧ step (given 0x2148#16) = .next t :=
  ⟨_, small_buffers_sound, rfl⟩
theorem witness_MachineNeverStops : starting.Inv := starting_inv

end Sys2Proof.Tests
end

section
/-! PROOFS. A step on a ready command port: the fetch of HOST's next word and the command it decodes to (R9, R70). -/

namespace Sys2Proof.Machine

/-- On a ready port neither hardware reset (R280) nor a running request (R209) takes the step. -/
theorem step_of_ready {s : State} (hready : s.Ready) : step s = commandStep s := by
  obtain ⟨hpin, hidle⟩ := hready
  simp [step, hpin, hidle]

theorem State.fetch_of_cons {s : State} {w : CmdWord} {rest : List CmdWord} (hcmds : s.hostCmds = w :: rest) :
    s.fetch = some (w, { s with hostCmds := rest }) := by
  simp [State.fetch, hcmds]

theorem commandStep_of_decode_instr {s s1 : State} {w : CmdWord} {i : Instr} (hfetch : s.fetch = some (w, s1))
    (hdecode : decode w = .instr i) : commandStep s = exec i s1 := by
  simp [commandStep, hfetch, hdecode]

/-- Settles O6: the port takes the step, the fetch consumes HOST's word, and the decoded command is carried out. -/
theorem stepRunsTheDecodedCommand : Obligations.StepRunsTheDecodedCommand := by
  intro s w rest i hready hcmds hdecode
  calc step s
    _ = commandStep s := step_of_ready hready
    _ = exec i { s with hostCmds := rest } := commandStep_of_decode_instr (State.fetch_of_cons hcmds) hdecode

end Sys2Proof.Machine
end

section
/-! PROOFS. A legal word is the encoding of the command it decodes to (R80, R81, R85). -/

namespace Sys2Proof

theorem ofFormatN_eq_instr (i j : Instr) (imm8 : Byte) : ofFormatN i imm8 = .instr j ↔ imm8 = 0#8 ∧ i = j := by
  unfold ofFormatN
  split <;> simp_all

/-- The two fields of a word (R80) give back the word. -/
theorem append_of_fields {w : CmdWord} {opc imm8 : Byte} (hopc : (opcField w).toNat = opc.toNat) (himm : immField w = imm8) :
    opc ++ imm8 = w := by
  rw [← BitVec.eq_of_toNat_eq hopc, ← himm]
  exact append_extract w

/-- The decoder's arms are of two kinds, one for each format (R81). -/
theorem encode_of_decode {w : CmdWord} {i : Instr} (h : decode w = .instr i) : encode i = w := by
  unfold decode at h
  dsimp only at h
  split at h <;> rename_i hopc
  case h_28 => cases h
  all_goals first
    | (obtain ⟨himm, rfl⟩ := (ofFormatN_eq_instr _ _ _).1 h
       exact append_of_fields hopc himm)
    | (obtain rfl := Decoded.instr.inj h
       exact append_of_fields hopc rfl)

end Sys2Proof
end

section
/-! PROOFS. What a step can do to each unit, said once: one relation per unit for the commands (R121 to R126, R154 to R162, R191 to R206), one for the micro-steps of the requester (R197 to R202), and the inversion of `step` into them. -/

namespace Sys2Proof.Machine

/-- What a command can make of the ENC unit. -/
inductive Encoder.Command (cap : Nat) (e : Encoder) : Instr → Encoder → Prop where
  /-- every command that is not one of the four below, and each of the last three where it is rejected -/
  | keep (i : Instr) : Encoder.Command cap e i e
  /-- `ENC_RESET` (R121) -/
  | rearm : Encoder.Command cap e .encReset e.rearm
  /-- an accepted `ENC_WRITE` (R122) -/
  | append {e' : Encoder} (b : Byte) (hroom : e.accepts cap = true) (h : e.append cap b = .ok e') :
      Encoder.Command cap e (.encWrite b) e'
  /-- `ENC_END` of an open encoder (R123) -/
  | finalize {e' : Encoder} (hopen : e.isOpen = true) (h : e.finalize cap = .ok e') : Encoder.Command cap e .encEnd e'
  /-- `ENC_READ` with data (R125) -/
  | read (hdata : e.readable = true) : Encoder.Command cap e .encRead { e with cur := bump e.cur }

/-- What a command can make of `dec`. -/
inductive Decoder.Command (cap : Nat) (D : Decoder) : Instr → Decoder → Prop where
  /-- every command that is not one of the three below, and `DEC_READ` without data -/
  | keep (i : Instr) : Decoder.Command cap D i D
  /-- `DEC_RESET` (R154) -/
  | clear : Decoder.Command cap D .decReset D.clear
  /-- `DEC_WRITE` (R156) -/
  | write {accepted : Bool} {D' : Decoder} (b : Byte) (h : D.write cap b = .ok (accepted, D')) :
      Decoder.Command cap D (.decWrite b) D'
  /-- `DEC_READ` with data (R158) -/
  | read (hdata : D.readable = true) : Decoder.Command cap D .decRead { D with ridx := bump D.ridx }

/-- What a command can make of the REQ unit. -/
inductive Requester.Command (r : Requester) : Instr → Requester → Prop where
  /-- every command that is not one of those below, and `REQ_READ` without data -/
  | keep (i : Instr) : Requester.Command r i r
  /-- `REQ_SET_ADDR` (R191) -/
  | setAddr (b : Byte) : Requester.Command r (.reqSetAddr b) { r with addr := b }
  /-- `REQ_SET_RESPLEN` (R192) -/
  | setResplen (b : Byte) : Requester.Command r (.reqSetResplen b) { r with resplen := b }
  /-- `REQ_SET_DELAY_LO` (R193) -/
  | setDelayLo (b : Byte) : Requester.Command r (.reqSetDelayLo b) { r with delay := withLowByte r.delay b }
  /-- `REQ_SET_DELAY_HI` (R194) -/
  | setDelayHi (b : Byte) : Requester.Command r (.reqSetDelayHi b) { r with delay := withHighByte r.delay b }
  /-- `REQ_SET_ATTEMPTS` (R195) -/
  | setAttempts (b : Byte) : Requester.Command r (.reqSetAttempts b) { r with maxatt := b }
  /-- `REQ_START` (R196) -/
  | start : Requester.Command r .reqStart r.begin
  /-- `REQ_READ` with data (R206) -/
  | read (hdata : r.readable = true) : Requester.Command r .reqRead { r with rxcur := bump r.rxcur }

/-- What command `i` does to the units in going from `s` to `t`. -/
structure CommandEffect (i : Instr) (s t : State) : Prop where
  maxPayload : t.maxPayload = s.maxPayload
  enc : s.enc.Command s.cap i t.enc
  dec : s.dec.Command s.cap i t.dec
  req : s.req.Command i t.req

/-- A command that only answers, or that changes no more than the accumulator beside it. -/
theorem CommandEffect.of_units_eq {i : Instr} {s t : State} (hp : t.maxPayload = s.maxPayload) (he : t.enc = s.enc)
    (hd : t.dec = s.dec) (hr : t.req = s.req) : CommandEffect i s t where
  maxPayload := hp
  enc := he ▸ .keep i
  dec := hd ▸ .keep i
  req := hr ▸ .keep i

theorem CommandEffect.of_enc {i : Instr} {s : State} {e : Encoder} (h : s.enc.Command s.cap i e) (f : Bool) (d : Byte) :
    CommandEffect i s ({ s with enc := e }.respond f d) := ⟨rfl, h, .keep i, .keep i⟩

theorem CommandEffect.of_dec {i : Instr} {s : State} {D : Decoder} (h : s.dec.Command s.cap i D) (f : Bool) (d : Byte) :
    CommandEffect i s ({ s with dec := D }.respond f d) := ⟨rfl, .keep i, h, .keep i⟩

theorem CommandEffect.of_req {i : Instr} {s : State} {r : Requester} (h : s.req.Command i r) (f : Bool) (d : Byte) :
    CommandEffect i s ({ s with req := r }.respond f d) := ⟨rfl, .keep i, .keep i, h⟩

theorem CommandEffect.of_respond (i : Instr) (s : State) (f : Bool) (d : Byte) : CommandEffect i s (s.respond f d) :=
  .of_units_eq rfl rfl rfl rfl

/-! ### The commands with a branch -/

theorem execEncWrite_effect {b : Byte} {s t : State} (h : execEncWrite b s = .next t) : CommandEffect (.encWrite b) s t := by
  unfold execEncWrite at h
  split at h
  case isTrue hroom =>
    split at h
    case h_1 => cases h
    case h_2 e he =>
      obtain rfl := Host.Outcome.next.inj h
      exact .of_enc (.append b hroom he) _ _
  case isFalse =>
    obtain rfl := Host.Outcome.next.inj h
    exact .of_respond _ _ _ _

theorem execEncEnd_effect {s t : State} (h : execEncEnd s = .next t) : CommandEffect .encEnd s t := by
  unfold execEncEnd at h
  split at h
  case isTrue hopen =>
    split at h
    case h_1 => cases h
    case h_2 e he =>
      obtain rfl := Host.Outcome.next.inj h
      exact .of_enc (.finalize hopen he) _ _
  case isFalse =>
    obtain rfl := Host.Outcome.next.inj h
    exact .of_respond _ _ _ _

theorem execEncRead_effect {s t : State} (h : execEncRead s = .next t) : CommandEffect .encRead s t := by
  unfold execEncRead at h
  split at h
  case isTrue hdata =>
    split at h
    case h_1 => cases h
    case h_2 v c hload =>
      obtain ⟨-, -, rfl⟩ := (loadPostInc_eq_ok _ _ _ _ _).1 hload
      obtain rfl := Host.Outcome.next.inj h
      exact .of_enc (.read hdata) _ _
  case isFalse =>
    obtain rfl := Host.Outcome.next.inj h
    exact .of_respond _ _ _ _

theorem execDecWrite_effect {b : Byte} {s t : State} (h : execDecWrite b s = .next t) : CommandEffect (.decWrite b) s t := by
  unfold execDecWrite at h
  split at h
  case h_1 => cases h
  case h_2 accepted D hD =>
    obtain rfl := Host.Outcome.next.inj h
    exact .of_dec (.write b hD) _ _

theorem execDecRead_effect {s t : State} (h : execDecRead s = .next t) : CommandEffect .decRead s t := by
  unfold execDecRead at h
  split at h
  case isTrue hdata =>
    split at h
    case h_1 => cases h
    case h_2 v c hload =>
      obtain ⟨-, -, rfl⟩ := (loadPostInc_eq_ok _ _ _ _ _).1 hload
      obtain rfl := Host.Outcome.next.inj h
      exact .of_dec (.read hdata) _ _
  case isFalse =>
    obtain rfl := Host.Outcome.next.inj h
    exact .of_respond _ _ _ _

theorem execReqRead_effect {s t : State} (h : execReqRead s = .next t) : CommandEffect .reqRead s t := by
  unfold execReqRead at h
  split at h
  case isTrue hdata =>
    split at h
    case h_1 => cases h
    case h_2 v c hload =>
      obtain ⟨-, -, rfl⟩ := (loadPostInc_eq_ok _ _ _ _ _).1 hload
      obtain rfl := Host.Outcome.next.inj h
      exact .of_req (.read hdata) _ _
  case isFalse =>
    obtain rfl := Host.Outcome.next.inj h
    exact .of_respond _ _ _ _

/-- Everything a command can do to the units (R85's 27 commands). -/
theorem exec_effect {i : Instr} {s t : State} (h : exec i s = .next t) : CommandEffect i s t := by
  cases i with
  | encWrite b => exact execEncWrite_effect h
  | encEnd => exact execEncEnd_effect h
  | encRead => exact execEncRead_effect h
  | decWrite b => exact execDecWrite_effect h
  | decRead => exact execDecRead_effect h
  | reqRead => exact execReqRead_effect h
  | encReset => obtain rfl := Host.Outcome.next.inj h; exact .of_enc .rearm _ _
  | decReset => obtain rfl := Host.Outcome.next.inj h; exact .of_dec .clear _ _
  | reqSetAddr b => obtain rfl := Host.Outcome.next.inj h; exact .of_req (.setAddr b) _ _
  | reqSetResplen b => obtain rfl := Host.Outcome.next.inj h; exact .of_req (.setResplen b) _ _
  | reqSetDelayLo b => obtain rfl := Host.Outcome.next.inj h; exact .of_req (.setDelayLo b) _ _
  | reqSetDelayHi b => obtain rfl := Host.Outcome.next.inj h; exact .of_req (.setDelayHi b) _ _
  | reqSetAttempts b => obtain rfl := Host.Outcome.next.inj h; exact .of_req (.setAttempts b) _ _
  | reqStart => obtain rfl := Host.Outcome.next.inj h; exact ⟨rfl, .keep _, .keep _, .start⟩
  | _ => obtain rfl := Host.Outcome.next.inj h; exact .of_units_eq rfl rfl rfl rfl

/-! ### The micro-steps of a running request -/

/-- What a micro-step can make of the REQ unit (R197 to R202). -/
inductive Requester.MicroStep (cap : Nat) (r : Requester) : Requester → Prop where
  /-- an attempt is left and a trigger is needed (R197) -/
  | toTrig (hq : r.state = .check) (hleft : r.attempt.toNat < r.maxatt.toNat) (htrig : r.needtrig = true) :
      Requester.MicroStep cap r { r with state := .trig }
  /-- an attempt is left and no trigger is needed (R197) -/
  | toWait (hq : r.state = .check) (hleft : r.attempt.toNat < r.maxatt.toNat) (htrig : r.needtrig = false) :
      Requester.MicroStep cap r { r with state := .wait }
  /-- `finish_exhausted()` (R202) -/
  | exhausted (hq : r.state = .check) (hnone : r.maxatt.toNat ≤ r.attempt.toNat) :
      Requester.MicroStep cap r
        { r with status := if r.lasterr = true then .packetError else .attemptsExhausted, state := .idle, awaiting := false }
  /-- one of the first five trigger events (R198, log 15) -/
  | trigEvent (hq : r.state = .trig) (hmore : r.trigSent.val < 5) :
      Requester.MicroStep cap r { r with trigSent := r.trigSent + 1 }
  /-- the last trigger event (R198) -/
  | trigEnd (hq : r.state = .trig) : Requester.MicroStep cap r { r with trigSent := 0, needtrig := false, state := .wait }
  /-- the event of RQ_WAIT or RQ_POLL is out and not answered (R199, R200, R208) -/
  | unanswered (hq : r.state = .wait ∨ r.state = .poll) : Requester.MicroStep cap r { r with awaiting := true }
  /-- the wait is done (R199) -/
  | waited (hq : r.state = .wait) : Requester.MicroStep cap r { r with awaiting := false, state := .poll }
  /-- an empty answer (R200) -/
  | notFound (hq : r.state = .poll) :
      Requester.MicroStep cap r { r with status := .peerNotFound, state := .idle, awaiting := false }
  /-- an answer with bytes in it, fed to `rdec` (R200) -/
  | answered {D : Decoder} (xs : List Byte) (hq : r.state = .poll) (hfeed : r.rdec.feed cap xs = .ok D) :
      Requester.MicroStep cap r { r with rdec := D, awaiting := false, state := .eval }
  /-- a verified frame: its payload is copied (R201) -/
  | success {payload : List Byte} {m : Memory} (hq : r.state = .eval) (hok : r.rdec.doneOk = true)
      (hload : loadRange cap r.rdec.buf 0 r.rdec.paylen.toNat = .ok payload)
      (hstore : storeList (cap - 4) r.rxbuf 0 payload = .ok m) :
      Requester.MicroStep cap r
        { r with rxbuf := m, rxlen := r.rdec.paylen, rxcur := 0#8, status := .packetRead, state := .idle, awaiting := false }
  /-- a decoder error (R201) -/
  | retrigger (hq : r.state = .eval) (herr : r.rdec.err ≠ .noError) :
      Requester.MicroStep cap r
        { r with rdec := r.rdec.clear, needtrig := true, lasterr := true, attempt := toByte (r.attempt.toNat + 1), state := .check }
  /-- neither (R201) -/
  | repoll (hq : r.state = .eval) (hok : r.rdec.doneOk = false) (herr : r.rdec.err = .noError) :
      Requester.MicroStep cap r { r with lasterr := false, attempt := toByte (r.attempt.toNat + 1), state := .check }

/-- What a micro-step does to the units in going from `s` to `t`: it moves REQ only (R209). -/
structure MicroEffect (s t : State) : Prop where
  maxPayload : t.maxPayload = s.maxPayload
  enc : t.enc = s.enc
  dec : t.dec = s.dec
  req : s.req.MicroStep s.cap t.req

theorem outcomeOf_eq_next (x : Except Fault State) (t : State) : outcomeOf x = .next t ↔ x = .ok t := by
  cases x <;> simp [outcomeOf]

theorem microCheck_effect {s : State} (hq : s.req.state = .check) : MicroEffect s (microCheck s) := by
  unfold microCheck
  split
  case isTrue hleft =>
    refine ⟨rfl, rfl, rfl, ?_⟩
    cases htrig : s.req.needtrig with
    | true => simpa using .toTrig hq hleft htrig
    | false => simpa using .toWait hq hleft htrig
  case isFalse hnone => exact ⟨rfl, rfl, rfl, .exhausted hq (Nat.le_of_not_lt hnone)⟩

theorem microTrig_effect {s : State} (hq : s.req.state = .trig) : MicroEffect s (microTrig s) := by
  rw [microTrig_eq]
  refine ⟨rfl, rfl, rfl, ?_⟩
  dsimp only
  split
  case isTrue hmore => exact .trigEvent hq hmore
  case isFalse => exact .trigEnd hq

theorem microWait_effect {s : State} (hq : s.req.state = .wait) : MicroEffect s (microWait s) := by
  rw [microWait_eq]
  split
  case h_1 => exact ⟨rfl, rfl, rfl, .unanswered (.inl hq)⟩
  case h_2 => exact ⟨rfl, rfl, rfl, .waited hq⟩

theorem microPoll_effect {s t : State} (hq : s.req.state = .poll) (h : microPoll s = .ok t) : MicroEffect s t := by
  obtain ⟨-, rfl⟩ | ⟨rest, -, rfl⟩ | ⟨b, bs, rest, D, -, hfeed, rfl⟩ := (microPoll_eq_ok s t).1 h
  · exact ⟨rfl, rfl, rfl, .unanswered (.inr hq)⟩
  · exact ⟨rfl, rfl, rfl, .notFound hq⟩
  · exact ⟨rfl, rfl, rfl, .answered (b :: bs) hq hfeed⟩

theorem microEval_effect {s t : State} (hq : s.req.state = .eval) (h : microEval s = .ok t) : MicroEffect s t := by
  unfold microEval at h
  split at h
  case isTrue hok =>
    obtain ⟨payload, m, hload, hstore, rfl⟩ := (takePayload_eq_ok s t).1 h
    exact ⟨rfl, rfl, rfl, .success hq hok hload hstore⟩
  case isFalse hok =>
    split at h
    case isTrue herr =>
      obtain rfl := Except.ok.inj h
      exact ⟨rfl, rfl, rfl, .retrigger hq ((Decoder.hasErr_eq_true _).1 herr)⟩
    case isFalse herr =>
      obtain rfl := Except.ok.inj h
      exact ⟨rfl, rfl, rfl, .repoll hq (by simpa using hok) (by simpa using herr)⟩

/-- Everything a micro-step can do to the units. -/
theorem requesterStep_effect {s t : State} (hrun : s.req.state ≠ .idle) (h : requesterStep s = .next t) : MicroEffect s t := by
  unfold requesterStep at h
  split at h
  case h_1 hq => exact absurd hq hrun
  case h_2 hq => obtain rfl := Host.Outcome.next.inj h; exact microCheck_effect hq
  case h_3 hq => obtain rfl := Host.Outcome.next.inj h; exact microTrig_effect hq
  case h_4 hq => obtain rfl := Host.Outcome.next.inj h; exact microWait_effect hq
  case h_5 hq => exact microPoll_effect hq ((outcomeOf_eq_next _ _).1 h)
  case h_6 hq => exact microEval_effect hq ((outcomeOf_eq_next _ _).1 h)

/-! ### A step -/

/-- Everything a step can do to the units: hardware reset (R280), an idle step or an illegal word's answer (R70, R254), HOST's next
command, a micro-step. -/
theorem step_effect {s t : State} (h : step s = .next t) :
    (s.resetPin = true ∧ t = s.hardReset) ∨
    (s.resetPin = false ∧ s.req.state = .idle ∧
      t.maxPayload = s.maxPayload ∧ t.enc = s.enc ∧ t.dec = s.dec ∧ t.req = s.req) ∨
    (s.resetPin = false ∧ s.req.state = .idle ∧ ∃ i rest, s.hostCmds = encode i :: rest ∧ CommandEffect i s t) ∨
    (s.resetPin = false ∧ s.req.state ≠ .idle ∧ MicroEffect s t) := by
  obtain hreset | ⟨hpin, hidle, -, rfl⟩ | ⟨hpin, hidle, w, rest, i, hcmds, hdecode, hexec⟩ |
    ⟨hpin, hidle, w, rest, why, -, -, rfl⟩ | ⟨hpin, hrun, hmicro⟩ := (step_eq_next s t).1 h
  · exact .inl hreset
  · exact .inr (.inl ⟨hpin, hidle, rfl, rfl, rfl, rfl⟩)
  · obtain ⟨hp, he, hd, hr⟩ := exec_effect hexec
    exact .inr (.inr (.inl ⟨hpin, hidle, i, rest, encode_of_decode hdecode ▸ hcmds, hp, he, hd, hr⟩))
  · exact .inr (.inl ⟨hpin, hidle, rfl, rfl, rfl, rfl⟩)
  · exact .inr (.inr (.inr ⟨hpin, hrun, requesterStep_effect hrun hmicro⟩))

theorem State.cap_eq_of_maxPayload {s t : State} (h : t.maxPayload = s.maxPayload) : t.cap = s.cap :=
  congrArg Config.capOf h

/-- No step changes the capacity (log 3). -/
theorem step_cap {s t : State} (h : step s = .next t) : t.cap = s.cap := by
  obtain ⟨-, rfl⟩ | ⟨-, -, hp, -⟩ | ⟨-, -, _, _, -, heff⟩ | ⟨-, -, heff⟩ := step_effect h
  · rfl
  · exact State.cap_eq_of_maxPayload hp
  · exact State.cap_eq_of_maxPayload heff.maxPayload
  · exact State.cap_eq_of_maxPayload heff.maxPayload

/-- A step resets the ENC unit or does to it what some command does. -/
theorem step_enc {s t : State} (h : step s = .next t) : t.enc = Encoder.reset ∨ ∃ i, s.enc.Command s.cap i t.enc := by
  obtain ⟨-, rfl⟩ | ⟨-, -, -, he, -⟩ | ⟨-, -, i, _, -, heff⟩ | ⟨-, -, heff⟩ := step_effect h
  · exact .inl rfl
  · exact .inr ⟨.encAvail, he ▸ .keep _⟩
  · exact .inr ⟨i, heff.enc⟩
  · exact .inr ⟨.encAvail, heff.enc ▸ .keep _⟩

/-- A step resets `dec` or does to it what some command does. -/
theorem step_dec {s t : State} (h : step s = .next t) : t.dec = Decoder.reset ∨ ∃ i, s.dec.Command s.cap i t.dec := by
  obtain ⟨-, rfl⟩ | ⟨-, -, -, -, hd, -⟩ | ⟨-, -, i, _, -, heff⟩ | ⟨-, -, heff⟩ := step_effect h
  · exact .inl rfl
  · exact .inr ⟨.decAvail, hd ▸ .keep _⟩
  · exact .inr ⟨i, heff.dec⟩
  · exact .inr ⟨.decAvail, heff.dec ▸ .keep _⟩

/-- A step resets the REQ unit, does to it on an idle block what some command does, or takes a micro-step of a running request. -/
theorem step_req {s t : State} (h : step s = .next t) :
    t.req = Requester.reset ∨ (s.req.state = .idle ∧ ∃ i, s.req.Command i t.req) ∨ s.req.MicroStep s.cap t.req := by
  obtain ⟨-, rfl⟩ | ⟨-, hidle, -, -, -, hr⟩ | ⟨-, hidle, i, _, -, heff⟩ | ⟨-, -, heff⟩ := step_effect h
  · exact .inl rfl
  · exact .inr (.inl ⟨hidle, .reqAvail, hr ▸ .keep _⟩)
  · exact .inr (.inl ⟨hidle, i, heff.req⟩)
  · exact .inr (.inr heff.req)

end Sys2Proof.Machine
end

section
/-! PROOFS. The ENC unit's invariant is kept (R30, R62). -/

namespace Sys2Proof.Machine

theorem Encoder.accepts_eq_true (cap : Nat) (e : Encoder) :
    e.accepts cap = true ↔ e.isOpen = true ∧ e.total.toNat + 1 ≤ cap - 2 := by
  simp [Encoder.accepts]

theorem Encoder.readable_eq_true (e : Encoder) : e.readable = true ↔ e.isOpen = false ∧ e.cur.toNat < e.total.toNat := by
  simp [Encoder.readable]

/-- The invariant of an open encoder (R30 (a)). -/
theorem Encoder.inv_iff_of_open {cap : Nat} {e : Encoder} (h : e.isOpen = true) :
    e.Inv cap ↔ e.buf.read 0 = some Config.startByte ∧ e.cur = e.total ∧ 2 ≤ e.total.toNat ∧ e.total.toNat ≤ cap - 2 ∧
      ∀ i, 2 ≤ i → i < e.total.toNat → (e.buf.read i).isSome = true := by
  simp [Encoder.Inv, h]

/-- The invariant of a closed encoder (R30 (b)). -/
theorem Encoder.inv_iff_of_closed {cap : Nat} {e : Encoder} (h : e.isOpen = false) :
    e.Inv cap ↔ e.buf.read 0 = some Config.startByte ∧
      4 ≤ e.total.toNat ∧ e.total.toNat ≤ cap ∧ e.cur.toNat ≤ e.total.toNat ∧
      e.buf.read 1 = some e.total ∧ e.buf.read (e.total.toNat - 1) = some Config.endByte ∧
      (∀ i, i < e.total.toNat → (e.buf.read i).isSome = true) ∧
      ∃ covered, loadRange cap e.buf 1 (e.total.toNat - 3) = .ok covered ∧
        e.buf.read (e.total.toNat - 2) = some (crc8Seq 0x00#8 covered) := by
  simp [Encoder.Inv, h]

/-- An open encoder with nothing in it yet. -/
theorem Encoder.inv_of_empty {cap : Nat} {e : Encoder} (hcap : 4 ≤ cap) (hopen : e.isOpen = true)
    (hstart : e.buf.read 0 = some Config.startByte) (hcur : e.cur = 2#8) (htotal : e.total = 2#8) : e.Inv cap := by
  have h2 : e.total.toNat = 2 := by rw [htotal]; rfl
  exact (Encoder.inv_iff_of_open hopen).2
    ⟨hstart, hcur.trans htotal.symm, h2.ge, by omega, fun i hi hlt => absurd hlt (by omega)⟩

theorem Encoder.reset_inv {cap : Nat} (hcap : 4 ≤ cap) : Encoder.reset.Inv cap :=
  Encoder.inv_of_empty hcap rfl rfl rfl rfl

theorem Encoder.rearm_inv {cap : Nat} (hcap : 4 ≤ cap) (e : Encoder) : e.rearm.Inv cap :=
  Encoder.inv_of_empty hcap rfl (Memory.read_write_same _ _ _) rfl rfl

theorem Encoder.Inv.append {cap : Nat} {e e' : Encoder} {b : Byte} (hcap : cap ≤ 255) (hinv : e.Inv cap)
    (hroom : e.accepts cap = true) (h : e.append cap b = .ok e') : e'.Inv cap := by
  obtain ⟨hopen, hfits⟩ := (Encoder.accepts_eq_true cap e).1 hroom
  obtain ⟨hstart, hcur, hlow, -, hwritten⟩ := (Encoder.inv_iff_of_open hopen).1 hinv
  obtain ⟨-, rfl⟩ := (Encoder.append_eq_ok cap e e' b).1 h
  have htotal : (toByte (e.total.toNat + 1)).toNat = e.total.toNat + 1 := toNat_toByte_of_lt (by omega)
  refine (Encoder.inv_iff_of_open (by exact hopen)).2 ⟨?_, ?_, ?_, ?_, ?_⟩ <;> dsimp only
  · rw [hcur, Memory.read_write_other _ _ (by omega), hstart]
  · rw [hcur, bump]
  · omega
  · omega
  · intro i hi hlt
    rw [hcur, Memory.read_write]
    split
    case isTrue => rfl
    case isFalse hne => exact hwritten i hi (by omega)

/-- The closed buffer is a whole frame: the three stores of R123 stand, and the checksum's own store is outside what it covers. -/
theorem Encoder.Inv.finalize {cap : Nat} {e e' : Encoder} (hcap : cap ≤ 255) (hinv : e.Inv cap) (hopen : e.isOpen = true)
    (h : e.finalize cap = .ok e') : e'.Inv cap := by
  obtain ⟨hstart, -, hlow, hhigh, hwritten⟩ := (Encoder.inv_iff_of_open hopen).1 hinv
  obtain ⟨hfits, -, covered, hcovered, rfl⟩ := (Encoder.finalize_eq_ok cap e e').1 h
  have htotal : (toByte (e.total.toNat + 2)).toNat = e.total.toNat + 2 := toNat_toByte_of_lt (by omega)
  refine (Encoder.inv_iff_of_closed rfl).2 ⟨?_, ?_, ?_, ?_, ?_, ?_, ?_, covered, ?_, ?_⟩ <;> dsimp only
  · rw [Memory.read_write_other _ _ (by omega), Memory.read_write_other _ _ (by omega),
      Memory.read_write_other _ _ (by omega), hstart]
  · omega
  · omega
  · exact Nat.zero_le _
  · rw [Memory.read_write_other _ _ (by omega), Memory.read_write_same]
  · rw [htotal, Memory.read_write_other _ _ (by omega), Memory.read_write_other _ _ (by omega)]
    exact Memory.read_write_same _ _ _
  · intro i hi
    simp only [Memory.read_write]
    split_ifs
    · rfl
    · rfl
    · rfl
    · obtain rfl | hi0 : i = 0 ∨ 2 ≤ i := by omega
      · rw [hstart]; rfl
      · exact hwritten i hi0 (by omega)
  · rw [htotal, show e.total.toNat + 2 - 3 = e.total.toNat - 1 by omega, ← hcovered]
    exact loadRange_congr _ _ _ _ _ fun k hk => Memory.read_write_other _ _ (by omega)
  · rw [htotal]
    exact Memory.read_write_same _ _ _

theorem Encoder.Inv.read {cap : Nat} {e : Encoder} (hinv : e.Inv cap) (hdata : e.readable = true) :
    ({ e with cur := bump e.cur } : Encoder).Inv cap := by
  obtain ⟨hclosed, hlt⟩ := (Encoder.readable_eq_true e).1 hdata
  obtain ⟨hstart, hlow, hhigh, -, hframe⟩ := (Encoder.inv_iff_of_closed hclosed).1 hinv
  have hcur : (bump e.cur).toNat = e.cur.toNat + 1 := toNat_bump_of_lt (by have := e.total.isLt; omega)
  exact (Encoder.inv_iff_of_closed (by exact hclosed)).2 ⟨hstart, hlow, hhigh, hcur.trans_le hlt, hframe⟩

theorem Encoder.Inv.command {cap : Nat} {e e' : Encoder} {i : Instr} (hlow : 4 ≤ cap) (hhigh : cap ≤ 255) (hinv : e.Inv cap)
    (h : e.Command cap i e') : e'.Inv cap := by
  cases h with
  | keep => exact hinv
  | rearm => exact e.rearm_inv hlow
  | append b hroom h => exact hinv.append hhigh hroom h
  | finalize hopen h => exact hinv.finalize hhigh hopen h
  | read hdata => exact hinv.read hdata

/-- Settles O29: hardware reset gives the empty encoder, and each of the four commands that touch the unit keeps its invariant. -/
theorem encoderInvariantIsKept : Obligations.EncoderInvariantIsKept := by
  intro s t hinv hstep
  obtain ⟨hlow, hhigh⟩ := s.cap_bounds
  rw [step_cap hstep]
  obtain hreset | ⟨i, hcommand⟩ := step_enc hstep
  · exact hreset ▸ Encoder.reset_inv hlow
  · exact hinv.command hlow hhigh hcommand

end Sys2Proof.Machine
end

section
/-! PROOFS. The invariant of a decoder record is kept (R41, R155). -/

namespace Sys2Proof.Machine

/-- What `Decoder.Inv` says of a record without its history: everything but R41 (c)'s input since the last reset. -/
def Decoder.Counts (cap : Nat) (D : Decoder) : Prop :=
  (D.total.toNat ≤ cap ∧ (2 ≤ D.total.toNat → D.total.toNat ≤ max D.explen.toNat 3)) ∧
  (D.isOpen = true → D.err = .noError ∧ 1 ≤ D.total.toNat ∧ D.widx.toNat = D.total.toNat - 2) ∧
  (D.isOpen = true → 2 ≤ D.total.toNat →
    D.explen.toNat ≤ cap ∧ (D.total.toNat = 2 ∨ D.total.toNat < D.explen.toNat)) ∧
  D.widx.toNat ≤ cap - 3 ∧
  (D.doneOk = true →
    D.total = D.explen ∧ 4 ≤ D.total.toNat ∧ D.paylen.toNat = D.total.toNat - 4 ∧ D.widx.toNat = D.paylen.toNat + 1 ∧
    D.ridx.toNat ≤ D.paylen.toNat ∧
    ∃ payload, loadRange cap D.buf 0 D.paylen.toNat = .ok payload ∧
      D.buf.read D.paylen.toNat = some (crc8Seq 0x00#8 (D.explen :: payload))) ∧
  (D.total.toNat = 0 → D.isOpen = false ∧ D.err = .noError ∧ D.widx = 0#8)

/-- The bytes of R41 (c) follow from there being an input at all (`Decoder.Since.stored`). -/
theorem Decoder.inv_iff {cap : Nat} (hcap : cap ≤ 255) (D : Decoder) :
    D.Inv cap ↔ D.Counts cap ∧ ∃ xs, D.Since cap xs := by
  constructor
  · rintro ⟨htotal, hopen, hlength, ⟨hwidx, xs, hsince, -⟩, hdone, hidle⟩
    exact ⟨⟨htotal, hopen, hlength, hwidx, hdone, hidle⟩, xs, hsince⟩
  · rintro ⟨⟨htotal, hopen, hlength, hwidx, hdone, hidle⟩, xs, hsince⟩
    exact ⟨htotal, hopen, hlength, ⟨hwidx, xs, hsince, hsince.stored hcap⟩, hdone, hidle⟩

theorem Decoder.doneOk_of_open {D : Decoder} (h : D.isOpen = true) : D.doneOk = false := by simp [Decoder.doneOk, h]

theorem Decoder.doneOk_of_err {D : Decoder} (h : D.err ≠ .noError) : D.doneOk = false := by
  simp [Decoder.doneOk, (Decoder.hasErr_eq_true D).2 h]

theorem Decoder.doneOk_of_total_zero {D : Decoder} (h : D.total.toNat = 0) : D.doneOk = false := by simp [Decoder.doneOk, h]

theorem Decoder.readable_eq_true (D : Decoder) : D.readable = true ↔ D.doneOk = true ∧ D.ridx.toNat < D.paylen.toNat := by
  simp [Decoder.readable]

/-! ### The counts phase by phase (R152) -/

theorem Decoder.counts_clear (cap : Nat) (D : Decoder) : D.clear.Counts cap := by
  simp [Decoder.Counts, Decoder.doneOk]

theorem Decoder.counts_iff_of_open {cap : Nat} {D : Decoder} (h : D.isOpen = true) :
    D.Counts cap ↔ D.total.toNat ≤ cap ∧ (2 ≤ D.total.toNat → D.total.toNat ≤ max D.explen.toNat 3) ∧
      D.err = .noError ∧ 1 ≤ D.total.toNat ∧ D.widx.toNat = D.total.toNat - 2 ∧
      (2 ≤ D.total.toNat → D.explen.toNat ≤ cap ∧ (D.total.toNat = 2 ∨ D.total.toNat < D.explen.toNat)) ∧
      D.widx.toNat ≤ cap - 3 := by
  simp only [Decoder.Counts, h, Decoder.doneOk_of_open h, Bool.true_eq_false, Bool.false_eq_true, false_and, true_implies,
    false_implies, true_and, and_assoc]
  constructor
  · rintro ⟨h1, h2, h3, h4, h5, h6, h7, -⟩
    exact ⟨h1, h2, h3, h4, h5, h6, h7⟩
  · rintro ⟨h1, h2, h3, h4, h5, h6, h7⟩
    exact ⟨h1, h2, h3, h4, h5, h6, h7, by omega⟩

theorem Decoder.counts_of_failed {cap : Nat} {D : Decoder} (hclosed : D.isOpen = false) (herr : D.err ≠ .noError)
    (hlow : 1 ≤ D.total.toNat) (htotal : D.total.toNat ≤ cap)
    (hlength : 2 ≤ D.total.toNat → D.total.toNat ≤ max D.explen.toNat 3) (hwidx : D.widx.toNat ≤ cap - 3) : D.Counts cap := by
  refine ⟨⟨htotal, hlength⟩, ?_, ?_, hwidx, ?_, ?_⟩
  · simp [hclosed]
  · simp [hclosed]
  · simp [Decoder.doneOk_of_err herr]
  · omega

/-! ### One input byte -/

/-- The checksum test at the terminal byte (R155, document rule 4) closes the record verified or failed. -/
theorem Decoder.Counts.verify {cap : Nat} {D D' : Decoder} {accepted : Bool} (hcap : cap ≤ 255) (hclosed : D.isOpen = false)
    (hlow : 4 ≤ D.total.toNat) (htotal : D.total.toNat ≤ cap) (hexplen : D.total = D.explen)
    (hwidx : D.widx.toNat = D.total.toNat - 3) (h : D.verify cap = .ok (accepted, D')) : D'.Counts cap := by
  have hpaylen : (toByte (D.total.toNat - 4)).toNat = D.total.toNat - 4 := toNat_toByte_of_lt (by omega)
  obtain ⟨payload, received, hload, hreceived, ⟨hcrc, -, rfl⟩ | ⟨-, -, rfl⟩⟩ := (Decoder.verify_eq_ok _ _ _ _).1 h
  · obtain ⟨-, hread⟩ := (load_eq_ok _ _ _ _).1 hreceived
    refine ⟨⟨htotal, fun _ => ?_⟩, ?_, ?_, ?_, fun _ => ⟨hexplen, hlow, hpaylen, ?_, Nat.zero_le _, payload, ?_, ?_⟩, ?_⟩ <;>
      dsimp only
    · rw [← hexplen]; exact Nat.le_max_left _ _
    · simp [hclosed]
    · simp [hclosed]
    · omega
    · omega
    · rw [hpaylen]; exact hload
    · rw [hpaylen, hcrc]; exact hread
    · omega
  · refine Decoder.counts_of_failed rfl (by simp) ?_ htotal (fun _ => ?_) ?_ <;> dsimp only
    · omega
    · rw [← hexplen]; exact Nat.le_max_left _ _
    · omega

theorem Decoder.Counts.write {cap : Nat} {D D' : Decoder} {b : Byte} {accepted : Bool} (hlow : 4 ≤ cap) (hhigh : cap ≤ 255)
    (hcounts : D.Counts cap) (h : D.write cap b = .ok (accepted, D')) : D'.Counts cap := by
  obtain ⟨-, -, rfl⟩ | ⟨herr, -, htotal, -, -, rfl⟩ | ⟨-, -, -, -, rfl⟩ | ⟨-, hopen, htotal, -, -, rfl⟩ |
    ⟨herr, hopen, htotal, hb, -, rfl⟩ | ⟨herr, hopen, hne, hmore, -, -, rfl⟩ | ⟨-, hopen, hne, hlast, -, -, rfl⟩ |
    ⟨-, hopen, hne, hlast, -, hfour, hverify⟩ := Decoder.write_cases h
  · exact hcounts
  · -- START
    obtain ⟨-, -, -, -, -, hidle⟩ := hcounts
    obtain ⟨-, -, hzero⟩ := hidle htotal
    have hwidx : D.widx.toNat = 0 := by rw [hzero]; rfl
    refine (Decoder.counts_iff_of_open rfl).2 ⟨?_, ?_, herr, ?_, ?_, ?_, ?_⟩ <;> simp <;> omega
  · exact hcounts -- noise, and trailing bytes
  all_goals obtain ⟨hcap, hlength, -, hone, hwidx, hexplen, -⟩ := (Decoder.counts_iff_of_open hopen).1 hcounts
  · -- a length above the capacity
    refine Decoder.counts_of_failed rfl (by simp) hone hcap ?_ ?_ <;> dsimp only <;> omega
  · -- the length
    refine (Decoder.counts_iff_of_open (by exact hopen)).2 ⟨?_, ?_, herr, ?_, ?_, ?_, ?_⟩ <;> simp <;> omega
  all_goals
    have hsucc : (toByte (D.total.toNat + 1)).toNat = D.total.toNat + 1 := toNat_toByte_of_lt (by omega)
  · -- a payload byte or the checksum byte
    have hbump : (bump D.widx).toNat = D.widx.toNat + 1 := toNat_bump_of_lt (by omega)
    refine (Decoder.counts_iff_of_open (by exact hopen)).2 ⟨?_, ?_, herr, ?_, ?_, ?_, ?_⟩ <;> dsimp only <;> omega
  · -- a terminal byte that is not END, or too early
    refine Decoder.counts_of_failed rfl (by simp) ?_ ?_ ?_ ?_ <;> dsimp only <;> omega
  · -- the terminal byte END
    refine Decoder.Counts.verify (h := hverify) hhigh rfl ?_ ?_ ?_ ?_ <;> dsimp only
    · omega
    · omega
    · exact BitVec.eq_of_toNat_eq (by omega)
    · omega

/-! ### The invariant -/

theorem Decoder.clear_inv {cap : Nat} (hcap : cap ≤ 255) (D : Decoder) : D.clear.Inv cap :=
  (Decoder.inv_iff hcap _).2 ⟨Decoder.counts_clear cap D, [], Decoder.since_clear cap D⟩

/-- The record after hardware reset is a cleared one (R40, R57). -/
theorem Decoder.reset_inv {cap : Nat} (hcap : cap ≤ 255) : Decoder.reset.Inv cap := Decoder.clear_inv hcap Decoder.reset

theorem Decoder.Inv.write {cap : Nat} {D D' : Decoder} {b : Byte} {accepted : Bool} (hlow : 4 ≤ cap) (hhigh : cap ≤ 255)
    (hinv : D.Inv cap) (h : D.write cap b = .ok (accepted, D')) : D'.Inv cap := by
  obtain ⟨hcounts, xs, hsince⟩ := (Decoder.inv_iff hhigh D).1 hinv
  exact (Decoder.inv_iff hhigh D').2 ⟨hcounts.write hlow hhigh h, xs ++ [b], hsince.write h⟩

theorem Decoder.Inv.feed {cap : Nat} {D D' : Decoder} {xs : List Byte} (hlow : 4 ≤ cap) (hhigh : cap ≤ 255)
    (hinv : D.Inv cap) (h : D.feed cap xs = .ok D') : D'.Inv cap := by
  induction xs generalizing D with
  | nil =>
    obtain rfl := Except.ok.inj h
    exact hinv
  | cons b xs ih =>
    obtain ⟨_, D1, hwrite, hfeed⟩ := (Decoder.feed_cons_eq_ok cap D D' b xs).1 h
    exact ih (hinv.write hlow hhigh hwrite) hfeed

/-- `DEC_READ` moves the read cursor only, within the payload. -/
theorem Decoder.Inv.read {cap : Nat} {D : Decoder} (hhigh : cap ≤ 255) (hinv : D.Inv cap) (hdata : D.readable = true) :
    ({ D with ridx := bump D.ridx } : Decoder).Inv cap := by
  obtain ⟨⟨htotal, hopen, hlength, hwidx, hdone, hidle⟩, xs, hsince⟩ := (Decoder.inv_iff hhigh D).1 hinv
  obtain ⟨hok, hlt⟩ := (Decoder.readable_eq_true D).1 hdata
  obtain ⟨hexplen, hfour, hpaylen, hstored, -, hpayload⟩ := hdone hok
  have hridx : (bump D.ridx).toNat = D.ridx.toNat + 1 := toNat_bump_of_lt (by have := D.paylen.isLt; omega)
  exact (Decoder.inv_iff hhigh _).2
    ⟨⟨htotal, hopen, hlength, hwidx, fun _ => ⟨hexplen, hfour, hpaylen, hstored, hridx.trans_le hlt, hpayload⟩, hidle⟩,
      xs, hsince.withRidx _⟩

theorem Decoder.Inv.command {cap : Nat} {D D' : Decoder} {i : Instr} (hlow : 4 ≤ cap) (hhigh : cap ≤ 255) (hinv : D.Inv cap)
    (h : D.Command cap i D') : D'.Inv cap := by
  cases h with
  | keep => exact hinv
  | clear => exact D.clear_inv hhigh
  | write b h => exact hinv.write hlow hhigh h
  | read hdata => exact hinv.read hhigh hdata

/-- Settles O35: hardware reset and `DEC_RESET` give a cleared record, and each input byte and each read keeps its invariant. -/
theorem decoderInvariantIsKept : Obligations.DecoderInvariantIsKept := by
  intro s t hinv hstep
  obtain ⟨hlow, hhigh⟩ := s.cap_bounds
  rw [step_cap hstep]
  obtain hreset | ⟨i, hcommand⟩ := step_dec hstep
  · exact hreset ▸ Decoder.reset_inv hhigh
  · exact hinv.command hlow hhigh hcommand

end Sys2Proof.Machine
end

section
/-! PROOFS. The REQ unit's invariant is kept (R41, R49, R52, R202), and what follows for its attempts and its configuration (R45, R52). -/

namespace Sys2Proof.Machine

/-- What `Requester.Inv` says of the receive buffer: no payload but a verified one is exposed (R49, R52). -/
def Requester.PayloadVerified (cap : Nat) (r : Requester) : Prop :=
  (r.rxcur.toNat ≤ r.rxlen.toNat ∧ r.rxlen.toNat ≤ cap - 4) ∧
  (r.status ≠ .packetRead → r.rxlen = 0#8) ∧
  (r.status = .packetRead →
    r.rdec.doneOk = true ∧ r.rxlen = r.rdec.paylen ∧
    ∀ i, i < r.rxlen.toNat → (r.rxbuf.read i).isSome = true ∧ r.rxbuf.read i = r.rdec.buf.read i)

/-- What `Requester.Inv` says of every running request: no status yet, and nothing in the receive buffer (R49, R202). -/
def Requester.NothingReceived (r : Requester) : Prop := r.status = .noStatus ∧ r.rxlen = 0#8 ∧ r.rxcur = 0#8

/-- What `Requester.Inv` says of `rdec` before an answer is fed to it. -/
def Requester.AwaitsFrame (r : Requester) : Prop := r.rdec.err = .noError ∧ r.rdec.doneOk = false

theorem Requester.NothingReceived.payloadVerified {cap : Nat} {r : Requester} (h : r.NothingReceived) :
    r.PayloadVerified cap := by
  obtain ⟨hstatus, hlen, hcur⟩ := h
  simp [Requester.PayloadVerified, hstatus, hlen, hcur]

theorem Requester.nothingReceived_iff (cap : Nat) (r : Requester) :
    r.NothingReceived ↔ r.status = .noStatus ∧ r.PayloadVerified cap := by
  constructor
  · intro h
    exact ⟨h.1, h.payloadVerified⟩
  · rintro ⟨hstatus, ⟨hcur, -⟩, hfailed, -⟩
    have hlen := hfailed (by simp [hstatus])
    exact ⟨hstatus, hlen, BitVec.eq_of_toNat_eq (by simpa [hlen] using hcur)⟩

/-- `Requester.Inv` with its clauses on the receive buffer and on `rdec` under their names. -/
theorem Requester.inv_iff (cap : Nat) (r : Requester) :
    r.Inv cap ↔ r.rdec.Inv cap ∧ r.PayloadVerified cap ∧
      (r.state ≠ .idle → r.status = .noStatus ∧ r.attempt.toNat ≤ r.maxatt.toNat) ∧
      (r.state = .trig ∨ r.state = .wait ∨ r.state = .poll ∨ r.state = .eval → r.attempt.toNat < r.maxatt.toNat) ∧
      (r.state = .check ∨ r.state = .trig ∨ r.state = .wait ∨ r.state = .poll → r.AwaitsFrame) ∧
      (r.state = .trig → r.needtrig = true) ∧
      (r.state = .wait ∨ r.state = .poll ∨ r.state = .eval → r.needtrig = false) ∧
      (r.awaiting = true → r.state = .wait ∨ r.state = .poll) ∧
      (r.trigSent ≠ 0 → r.state = .trig) := by
  simp only [Requester.Inv, Requester.PayloadVerified, Requester.AwaitsFrame, and_assoc]

/-! ### The invariant state by state (R48) -/

theorem Requester.inv_iff_of_idle {cap : Nat} {r : Requester} (h : r.state = .idle) :
    r.Inv cap ↔ r.rdec.Inv cap ∧ r.PayloadVerified cap ∧ r.awaiting = false ∧ r.trigSent = 0 := by
  simp [Requester.inv_iff, h]

theorem Requester.inv_iff_of_check {cap : Nat} {r : Requester} (h : r.state = .check) :
    r.Inv cap ↔ r.rdec.Inv cap ∧ r.NothingReceived ∧ r.AwaitsFrame ∧ r.attempt.toNat ≤ r.maxatt.toNat ∧
      r.awaiting = false ∧ r.trigSent = 0 := by
  grind [Requester.inv_iff, Requester.nothingReceived_iff cap]

theorem Requester.inv_iff_of_trig {cap : Nat} {r : Requester} (h : r.state = .trig) :
    r.Inv cap ↔ r.rdec.Inv cap ∧ r.NothingReceived ∧ r.AwaitsFrame ∧ r.attempt.toNat < r.maxatt.toNat ∧
      r.needtrig = true ∧ r.awaiting = false := by
  grind [Requester.inv_iff, Requester.nothingReceived_iff cap]

theorem Requester.inv_iff_of_wait_or_poll {cap : Nat} {r : Requester} (h : r.state = .wait ∨ r.state = .poll) :
    r.Inv cap ↔ r.rdec.Inv cap ∧ r.NothingReceived ∧ r.AwaitsFrame ∧ r.attempt.toNat < r.maxatt.toNat ∧
      r.needtrig = false ∧ r.trigSent = 0 := by
  grind [Requester.inv_iff, Requester.nothingReceived_iff cap]

theorem Requester.inv_iff_of_eval {cap : Nat} {r : Requester} (h : r.state = .eval) :
    r.Inv cap ↔ r.rdec.Inv cap ∧ r.NothingReceived ∧ r.attempt.toNat < r.maxatt.toNat ∧
      r.needtrig = false ∧ r.awaiting = false ∧ r.trigSent = 0 := by
  grind [Requester.inv_iff, Requester.nothingReceived_iff cap]

/-! ### The micro-steps and the commands -/

/-- The next attempt's number: one is left for RQ_CHECK to count, so it fits the register (R46, R201). -/
theorem Requester.toNat_nextAttempt {r : Requester} (h : r.attempt.toNat < r.maxatt.toNat) :
    (toByte (r.attempt.toNat + 1)).toNat = r.attempt.toNat + 1 :=
  toNat_toByte_of_lt (by have := r.maxatt.isLt; omega)

theorem Requester.awaitsFrame_of_clear {r : Requester} {D : Decoder} (h : r.rdec = D.clear) : r.AwaitsFrame := by
  simp [Requester.AwaitsFrame, h, Decoder.doneOk]

/-- The payload of a verified record, copied into the receive buffer (R201, document step 3). -/
theorem payloadVerified_of_copy {cap : Nat} {r : Requester} {payload : List Byte} {m : Memory} (hdec : r.rdec.Inv cap)
    (hok : r.rdec.doneOk = true) (hload : loadRange cap r.rdec.buf 0 r.rdec.paylen.toNat = .ok payload)
    (hstore : storeList (cap - 4) r.rxbuf 0 payload = .ok m) :
    Requester.PayloadVerified cap
      { r with rxbuf := m, rxlen := r.rdec.paylen, rxcur := 0#8, status := .packetRead, state := .idle, awaiting := false } := by
  obtain ⟨⟨htotal, -⟩, -, -, -, hdone, -⟩ := hdec
  obtain ⟨-, -, hpaylen, -⟩ := hdone hok
  obtain ⟨hlen, hbytes⟩ := (loadRange_eq_ok _ _ _ _ _).1 hload
  obtain ⟨-, hread, -⟩ := storeList_ok _ _ _ _ _ hstore
  refine ⟨⟨Nat.zero_le _, by dsimp only; omega⟩, fun h => absurd rfl h, fun _ => ⟨hok, rfl, fun i hi => ?_⟩⟩
  obtain ⟨-, hbyte⟩ := hbytes i hi
  have hcopied : m.read i = payload[i]? := by rw [hread, if_pos (by dsimp only at hi; omega), Nat.sub_zero]
  rw [Nat.zero_add] at hbyte
  dsimp only
  rw [hcopied, hbyte]
  exact ⟨by simpa [hlen] using hi, rfl⟩

theorem Requester.Inv.microStep {cap : Nat} {r r' : Requester} (hlow : 4 ≤ cap) (hhigh : cap ≤ 255) (hinv : r.Inv cap)
    (h : r.MicroStep cap r') : r'.Inv cap := by
  cases h with
  | toTrig hq hleft htrig =>
    obtain ⟨hdec, hnothing, hawaits, -, hout, -⟩ := (inv_iff_of_check hq).1 hinv
    exact (inv_iff_of_trig rfl).2 ⟨hdec, hnothing, hawaits, hleft, htrig, hout⟩
  | toWait hq hleft htrig =>
    obtain ⟨hdec, hnothing, hawaits, -, -, hsent⟩ := (inv_iff_of_check hq).1 hinv
    exact (inv_iff_of_wait_or_poll (.inl rfl)).2 ⟨hdec, hnothing, hawaits, hleft, htrig, hsent⟩
  | exhausted hq =>
    obtain ⟨hdec, ⟨-, hlen, hcur⟩, -, -, -, hsent⟩ := (inv_iff_of_check hq).1 hinv
    refine (inv_iff_of_idle rfl).2 ⟨hdec, ?_, rfl, hsent⟩
    split_ifs <;> simp [PayloadVerified, hlen, hcur]
  | trigEvent hq =>
    obtain ⟨hdec, hnothing, hawaits, hleft, htrig, hout⟩ := (inv_iff_of_trig hq).1 hinv
    exact (inv_iff_of_trig (by exact hq)).2 ⟨hdec, hnothing, hawaits, hleft, htrig, hout⟩
  | trigEnd hq =>
    obtain ⟨hdec, hnothing, hawaits, hleft, -, -⟩ := (inv_iff_of_trig hq).1 hinv
    exact (inv_iff_of_wait_or_poll (.inl rfl)).2 ⟨hdec, hnothing, hawaits, hleft, rfl, rfl⟩
  | unanswered hq =>
    exact (inv_iff_of_wait_or_poll (by exact hq)).2 ((inv_iff_of_wait_or_poll hq).1 hinv)
  | waited hq =>
    exact (inv_iff_of_wait_or_poll (.inr rfl)).2 ((inv_iff_of_wait_or_poll (.inl hq)).1 hinv)
  | notFound hq =>
    obtain ⟨hdec, ⟨-, hlen, hcur⟩, -, -, -, hsent⟩ := (inv_iff_of_wait_or_poll (.inr hq)).1 hinv
    exact (inv_iff_of_idle rfl).2 ⟨hdec, by simp [PayloadVerified, hlen, hcur], rfl, hsent⟩
  | answered xs hq hfeed =>
    obtain ⟨hdec, hnothing, -, hleft, htrig, hsent⟩ := (inv_iff_of_wait_or_poll (.inr hq)).1 hinv
    exact (inv_iff_of_eval rfl).2 ⟨hdec.feed hlow hhigh hfeed, hnothing, hleft, htrig, rfl, hsent⟩
  | success hq hok hload hstore =>
    obtain ⟨hdec, -, -, -, -, hsent⟩ := (inv_iff_of_eval hq).1 hinv
    exact (inv_iff_of_idle rfl).2 ⟨hdec, payloadVerified_of_copy hdec hok hload hstore, rfl, hsent⟩
  | retrigger hq =>
    obtain ⟨-, hnothing, hleft, -, hout, hsent⟩ := (inv_iff_of_eval hq).1 hinv
    exact (inv_iff_of_check rfl).2 ⟨r.rdec.clear_inv hhigh, hnothing, awaitsFrame_of_clear rfl,
      (toNat_nextAttempt hleft).trans_le hleft, hout, hsent⟩
  | repoll hq hok herr =>
    obtain ⟨hdec, hnothing, hleft, -, hout, hsent⟩ := (inv_iff_of_eval hq).1 hinv
    exact (inv_iff_of_check rfl).2 ⟨hdec, hnothing, ⟨herr, hok⟩, (toNat_nextAttempt hleft).trans_le hleft, hout, hsent⟩

theorem Requester.readable_eq_true (r : Requester) : r.readable = true ↔ r.rxcur.toNat < r.rxlen.toNat := by
  simp [Requester.readable]

/-- A command reaches the REQ unit only on an idle block (R209). -/
theorem Requester.Inv.command {cap : Nat} {r r' : Requester} {i : Instr} (hhigh : cap ≤ 255) (hidle : r.state = .idle)
    (hinv : r.Inv cap) (h : r.Command i r') : r'.Inv cap := by
  obtain ⟨hdec, hpayload, hout, hsent⟩ := (inv_iff_of_idle hidle).1 hinv
  cases h with
  | keep => exact hinv
  | setAddr | setResplen | setDelayLo | setDelayHi | setAttempts =>
    exact (inv_iff_of_idle (by exact hidle)).2 ⟨hdec, hpayload, hout, hsent⟩
  | start =>
    exact (inv_iff_of_check rfl).2 ⟨r.rdec.clear_inv hhigh, ⟨rfl, rfl, rfl⟩, awaitsFrame_of_clear rfl, Nat.zero_le _, rfl, rfl⟩
  | read hdata =>
    have hlt := r.readable_eq_true.1 hdata
    obtain ⟨⟨-, hlen⟩, hstatus⟩ := hpayload
    have hcur : (bump r.rxcur).toNat = r.rxcur.toNat + 1 := toNat_bump_of_lt (by have := r.rxlen.isLt; omega)
    exact (inv_iff_of_idle (by exact hidle)).2 ⟨hdec, ⟨⟨hcur.trans_le hlt, hlen⟩, hstatus⟩, hout, hsent⟩

theorem Requester.reset_inv {cap : Nat} (hcap : cap ≤ 255) : Requester.reset.Inv cap :=
  (inv_iff_of_idle rfl).2
    ⟨Decoder.reset_inv hcap, Requester.NothingReceived.payloadVerified ⟨rfl, rfl, rfl⟩, rfl, rfl⟩

/-- Settles O50: hardware reset gives the idle unit, each command keeps its invariant on an idle block, and each micro-step keeps
that of a running request. -/
theorem requesterInvariantIsKept : Obligations.RequesterInvariantIsKept := by
  intro s t hinv hstep
  obtain ⟨hlow, hhigh⟩ := s.cap_bounds
  rw [step_cap hstep]
  obtain hreset | ⟨hidle, i, hcommand⟩ | hmicro := step_req hstep
  · exact hreset ▸ Requester.reset_inv hhigh
  · exact hinv.command hhigh hidle hcommand
  · exact hinv.microStep hlow hhigh hmicro

/-! ### Attempts and configuration -/

/-- Among commands only `REQ_SET_ATTEMPTS` can take the attempts above the maximum, and it leaves their number. -/
theorem Requester.Command.attempt_le {r r' : Requester} {i : Instr} (hle : r.attempt.toNat ≤ r.maxatt.toNat)
    (h : r.Command i r') :
    r'.attempt.toNat ≤ r'.maxatt.toNat ∨
      ∃ b, i = .reqSetAttempts b ∧ b.toNat < r.attempt.toNat ∧ r'.maxatt = b ∧ r'.attempt = r.attempt := by
  cases h with
  | setAttempts b =>
    obtain hfits | hbelow := le_or_gt r.attempt.toNat b.toNat
    · exact .inl hfits
    · exact .inr ⟨b, rfl, hbelow, rfl, rfl⟩
  | start => exact .inl (Nat.zero_le _)
  | keep | setAddr | setResplen | setDelayLo | setDelayHi | read => exact .inl hle

/-- A micro-step counts an attempt only in RQ_EVAL, where one is left (R197, R201). -/
theorem Requester.MicroStep.attempt_le {cap : Nat} {r r' : Requester} (hinv : r.Inv cap)
    (hle : r.attempt.toNat ≤ r.maxatt.toNat) (h : r.MicroStep cap r') : r'.attempt.toNat ≤ r'.maxatt.toNat := by
  cases h with
  | retrigger hq | repoll hq =>
    obtain ⟨-, -, hleft, -⟩ := (inv_iff_of_eval hq).1 hinv
    exact (toNat_nextAttempt hleft).trans_le hleft
  | _ => exact hle

/-- Settles O59: a command can lower the maximum below the attempts made, and nothing else breaks R52's first clause. -/
theorem attemptsStayWithinTheMaximum : Obligations.AttemptsStayWithinTheMaximum := by
  refine ⟨fun p => Nat.zero_le _, fun s t hinv hle hstep => ?_⟩
  obtain ⟨-, rfl⟩ | ⟨-, -, -, -, -, hr⟩ | ⟨hpin, hidle, i, rest, hcmds, heff⟩ | ⟨-, -, heff⟩ := step_effect hstep
  · exact .inl (Nat.zero_le _)
  · exact .inl (hr ▸ hle)
  · obtain hfits | ⟨b, rfl, hbelow⟩ := heff.req.attempt_le hle
    · exact .inl hfits
    · exact .inr ⟨hpin, hidle, b, rest, hcmds, hbelow⟩
  · exact .inl (heff.req.attempt_le hinv hle)

/-- No micro-step writes a configuration register (R45). -/
theorem Requester.MicroStep.config_eq {cap : Nat} {r r' : Requester} (h : r.MicroStep cap r') :
    r'.addr = r.addr ∧ r'.resplen = r.resplen ∧ r'.maxatt = r.maxatt ∧ r'.delay = r.delay := by
  cases h <;> exact ⟨rfl, rfl, rfl, rfl⟩

/-- A command that changes a configuration register is that register's own (R45, R191 to R195). -/
theorem Requester.Command.of_config_ne {r r' : Requester} {i : Instr} (h : r.Command i r') :
    (r'.addr ≠ r.addr → i = .reqSetAddr r'.addr) ∧
    (r'.resplen ≠ r.resplen → i = .reqSetResplen r'.resplen) ∧
    (r'.maxatt ≠ r.maxatt → i = .reqSetAttempts r'.maxatt) ∧
    (r'.delay ≠ r.delay → ∃ b, i = .reqSetDelayLo b ∨ i = .reqSetDelayHi b) := by
  cases h <;> simp

/-- Settles O49: a command changes no configuration register but its own, and nothing else changes any. -/
theorem configurationHoldsItsValue : Obligations.ConfigurationHoldsItsValue := by
  intro s t hpin hstep
  obtain ⟨hreset, -⟩ | ⟨-, -, -, -, -, hr⟩ | ⟨-, hidle, i, rest, hcmds, heff⟩ | ⟨-, -, heff⟩ := step_effect hstep
  · simp [hpin] at hreset
  · simp [hr]
  · obtain ⟨haddr, hresplen, hmaxatt, hdelay⟩ := heff.req.of_config_ne
    have hword : ∀ j, i = j → s.hostCmds = encode j :: rest := fun j hj => hj ▸ hcmds
    refine ⟨fun hne => ⟨hidle, _, rest, hword (.reqSetAddr _) (haddr hne), rfl⟩,
      fun hne => ⟨hidle, _, rest, hword (.reqSetResplen _) (hresplen hne), rfl⟩,
      fun hne => ⟨hidle, _, rest, hword (.reqSetAttempts _) (hmaxatt hne), rfl⟩, fun hne => ⟨hidle, ?_⟩⟩
    obtain ⟨b, rfl | rfl⟩ := hdelay hne
    · exact ⟨b, rest, .inl hcmds⟩
    · exact ⟨b, rest, .inr hcmds⟩
  · obtain ⟨haddr, hresplen, hmaxatt, hdelay⟩ := heff.req.config_eq
    simp [haddr, hresplen, hmaxatt, hdelay]

end Sys2Proof.Machine
end

section
/-! PROOFS. The status flags (R55), a recorded decoder error (R39, R257, R260), and the state after hardware reset (R57, R280). -/

namespace Sys2Proof.Machine

/-! ### Flags -/

theorem Encoder.Command.of_isOpen_ne {cap : Nat} {e e' : Encoder} {i : Instr} (h : e.Command cap i e')
    (hne : e'.isOpen ≠ e.isOpen) : i = .encReset ∨ i = .encEnd := by
  cases h with
  | rearm => exact .inl rfl
  | finalize => exact .inr rfl
  | append b _ happend =>
    obtain ⟨-, rfl⟩ := (Encoder.append_eq_ok cap e e' b).1 happend
    exact absurd rfl hne
  | keep | read => exact absurd rfl hne

theorem Decoder.Command.of_isOpen_ne {cap : Nat} {D D' : Decoder} {i : Instr} (h : D.Command cap i D')
    (hne : D'.isOpen ≠ D.isOpen) : i = .decReset ∨ ∃ b, i = .decWrite b := by
  cases h with
  | clear => exact .inl rfl
  | write b => exact .inr ⟨b, rfl⟩
  | keep | read => exact absurd rfl hne

/-- A record in error takes no byte (R155, document rule 1; R257). -/
theorem Decoder.write_of_err {D : Decoder} (herr : D.err ≠ .noError) (cap : Nat) (b : Byte) :
    D.write cap b = .ok (false, D) := by
  simp [Decoder.write, (Decoder.hasErr_eq_true D).2 herr]

theorem Decoder.feed_of_err {D : Decoder} (herr : D.err ≠ .noError) (cap : Nat) (xs : List Byte) : D.feed cap xs = .ok D := by
  induction xs with
  | nil => rfl
  | cons b xs ih => simp only [Decoder.feed, Decoder.write_of_err herr, ih]

/-- A record in error changes under `DEC_RESET` only (R260). -/
theorem Decoder.Command.of_err {cap : Nat} {D D' : Decoder} {i : Instr} (herr : D.err ≠ .noError) (h : D.Command cap i D') :
    D' = D ∨ (i = .decReset ∧ D' = D.clear) := by
  cases h with
  | keep => exact .inl rfl
  | clear => exact .inr ⟨rfl, rfl⟩
  | write b hwrite =>
    rw [Decoder.write_of_err herr] at hwrite
    exact .inl (Prod.mk.inj (Except.ok.inj hwrite)).2.symm
  | read hdata =>
    obtain ⟨hok, -⟩ := (Decoder.readable_eq_true D).1 hdata
    simp [Decoder.doneOk_of_err herr] at hok

theorem Decoder.Command.of_err_ne {cap : Nat} {D D' : Decoder} {i : Instr} (h : D.Command cap i D') (hne : D'.err ≠ D.err) :
    i = .decReset ∨ (D.err = .noError ∧ ∃ b, i = .decWrite b) := by
  by_cases herr : D.err = .noError
  · cases h with
    | clear => exact .inl rfl
    | write b => exact .inr ⟨herr, b, rfl⟩
    | keep | read => exact absurd rfl hne
  · obtain rfl | ⟨hi, -⟩ := h.of_err herr
    · exact absurd rfl hne
    · exact .inl hi

theorem Requester.Command.of_flags_ne {r r' : Requester} {i : Instr} (h : r.Command i r')
    (hne : r'.needtrig ≠ r.needtrig ∨ r'.lasterr ≠ r.lasterr ∨ r'.status ≠ r.status) : i = .reqStart := by
  cases h with
  | start => rfl
  | keep | setAddr | setResplen | setDelayLo | setDelayHi | setAttempts | read => simp at hne

/-- Settles O16: each flag is written by the commands of its own unit that R55 lists. -/
theorem flagsChangeOnlyUnderTheirCommands : Obligations.FlagsChangeOnlyUnderTheirCommands := by
  intro i s t hexec
  obtain ⟨-, henc, hdec, hreq⟩ := exec_effect hexec
  exact ⟨henc.of_isOpen_ne, hdec.of_isOpen_ne, hdec.of_err_ne, hreq.of_flags_ne⟩

/-- Settles O36: a byte leaves a record in error as it is, and so does every command but `DEC_RESET`, which clears it. -/
theorem recordedErrorIsSticky : Obligations.RecordedErrorIsSticky := by
  refine ⟨fun cap D xs herr => Decoder.feed_of_err herr cap xs, fun i s t herr hexec => ?_⟩
  obtain ⟨-, -, hdec, -⟩ := exec_effect hexec
  refine ⟨fun hi => ?_, fun hi => ?_⟩
  · obtain hkept | ⟨hreset, -⟩ := hdec.of_err herr
    · exact hkept
    · exact absurd hreset hi
  · subst hi
    obtain rfl := Host.Outcome.next.inj hexec
    rfl

/-! ### Hardware reset -/

theorem Decoder.reset_atReset : Decoder.reset.AtReset := ⟨rfl, rfl, rfl, rfl, rfl, rfl, rfl, Memory.read_nil⟩

/-- Before anything is stored, the encoder's buffer holds the start sentinel and nothing else (R29). -/
theorem Encoder.reset_buf_read {i : Nat} (h : i ≠ 0) : Encoder.reset.buf.read i = none := by
  simp [Encoder.reset, Memory.read, h.symm]

/-- R57's table is about the four units alone. -/
theorem State.atReset_of_units {s : State} (hcrc : s.crcAcc = 0x00#8) (henc : s.enc = Encoder.reset) (hdec : s.dec = Decoder.reset)
    (hreq : s.req = Requester.reset) : s.AtReset := by
  rw [State.AtReset, hcrc, henc, hdec, hreq]
  exact ⟨rfl, ⟨rfl, rfl, rfl, rfl, fun _ => Encoder.reset_buf_read⟩, Decoder.reset_atReset, Decoder.reset_atReset,
    ⟨rfl, rfl, rfl, rfl⟩, ⟨rfl, rfl, rfl⟩, rfl, rfl, rfl, rfl, Memory.read_nil⟩

theorem State.resetWith_atReset (p : Config.MaxPayload) : (State.resetWith p).AtReset :=
  State.atReset_of_units rfl rfl rfl rfl

/-- Settles O9: the reset input takes the step before anything else does, and the units come out at R57's table. -/
theorem hardwareResetGivesTheResetTable : Obligations.HardwareResetGivesTheResetTable := by
  intro s hpin
  have hstep : step s = .next s.hardReset := (step_eq_next s _).2 (.inl ⟨hpin, rfl⟩)
  exact ⟨s.hardReset, hstep, State.atReset_of_units rfl rfl rfl rfl, ⟨rfl, rfl⟩, rfl, rfl, rfl, rfl, rfl, rfl⟩

/-- Settles O10: the table does not mention the capacity. -/
theorem resetStateHoldsTheResetTable : Obligations.ResetStateHoldsTheResetTable :=
  ⟨State.resetWith_atReset _, State.resetWith_atReset⟩

theorem State.resetWith_buffersSound (p : Config.MaxPayload) : (State.resetWith p).BuffersSound := by
  obtain ⟨hlow, -⟩ := (State.resetWith p).cap_bounds
  have hempty : Memory.Sound (State.resetWith p).cap [] := Memory.Sound.nil _
  exact ⟨hempty.write (i := 0) (by omega) Config.startByte, hempty, hempty, Memory.Sound.nil _⟩

theorem State.resetWith_inv (p : Config.MaxPayload) : (State.resetWith p).Inv := by
  obtain ⟨hlow, hhigh⟩ := (State.resetWith p).cap_bounds
  exact ⟨State.resetWith_buffersSound p, Encoder.reset_inv hlow, Decoder.reset_inv hhigh, Requester.reset_inv hhigh,
    fun hrun => absurd rfl hrun, nofun⟩

/-- Settles O57: each unit's invariant holds of its reset value, and no response is available. -/
theorem resetStateMeetsTheInvariant : Obligations.ResetStateMeetsTheInvariant :=
  ⟨State.resetWith_inv _, State.resetWith_inv⟩

end Sys2Proof.Machine
end

section
/-! PROOFS. What a command writes and how it answers, said once (R70, R82, R83), and what a step of a ready port leaves alone. -/

namespace Sys2Proof.Machine

/-- Everything command `i` can make of the state: it writes its own unit and answers with a legal response, but for `REQ_START`,
whose response comes when the request finishes. -/
inductive State.Answered (s : State) (i : Instr) : State → Prop where
  /-- `REQ_START` (R196) -/
  | start (hi : i = .reqStart) : State.Answered s i { s with req := s.req.begin, resp := none, trace := [] }
  /-- a CRC command -/
  | crc (hu : i.unit = .crc) (acc : Byte) (f : Bool) (d : Byte) : State.Answered s i ({ s with crcAcc := acc }.respond f d)
  /-- an ENC command -/
  | enc (hu : i.unit = .enc) (e : Encoder) (f : Bool) (d : Byte) : State.Answered s i ({ s with enc := e }.respond f d)
  /-- a DEC command -/
  | dec (hu : i.unit = .dec) (D : Decoder) (f : Bool) (d : Byte) : State.Answered s i ({ s with dec := D }.respond f d)
  /-- any other REQ command; it starts no request -/
  | req (hu : i.unit = .req) (r : Requester) (hstate : r.state = s.req.state) (f : Bool) (d : Byte) :
      State.Answered s i ({ s with req := r }.respond f d)

theorem exec_answered {i : Instr} {s t : State} (h : exec i s = .next t) : s.Answered i t := by
  cases i with
  | reqStart => obtain rfl := Host.Outcome.next.inj h; exact .start rfl
  | encWrite | encEnd | encRead =>
    simp only [exec, execEncWrite, execEncEnd, execEncRead] at h
    split at h
    case isTrue =>
      split at h
      case h_1 => cases h
      case h_2 => obtain rfl := Host.Outcome.next.inj h; exact .enc rfl _ _ _
    case isFalse => obtain rfl := Host.Outcome.next.inj h; exact .enc rfl s.enc _ _
  | decWrite =>
    simp only [exec, execDecWrite] at h
    split at h
    case h_1 => cases h
    case h_2 => obtain rfl := Host.Outcome.next.inj h; exact .dec rfl _ _ _
  | decRead =>
    simp only [exec, execDecRead] at h
    split at h
    case isTrue =>
      split at h
      case h_1 => cases h
      case h_2 => obtain rfl := Host.Outcome.next.inj h; exact .dec rfl _ _ _
    case isFalse => obtain rfl := Host.Outcome.next.inj h; exact .dec rfl s.dec _ _
  | reqRead =>
    simp only [exec, execReqRead] at h
    split at h
    case isTrue =>
      split at h
      case h_1 => cases h
      case h_2 => obtain rfl := Host.Outcome.next.inj h; exact .req rfl _ (by rfl) _ _
    case isFalse => obtain rfl := Host.Outcome.next.inj h; exact .req rfl s.req (by rfl) _ _
  | crcReset | crcCalc | crcUpdate => obtain rfl := Host.Outcome.next.inj h; exact .crc rfl _ _ _
  | crcRead => obtain rfl := Host.Outcome.next.inj h; exact .crc rfl s.crcAcc _ _
  | encReset => obtain rfl := Host.Outcome.next.inj h; exact .enc rfl _ _ _
  | encAvail | encPktlen => obtain rfl := Host.Outcome.next.inj h; exact .enc rfl s.enc _ _
  | decReset => obtain rfl := Host.Outcome.next.inj h; exact .dec rfl _ _ _
  | decAvail | decIsopen | decHaserr | decLasterr | decTotlen =>
    obtain rfl := Host.Outcome.next.inj h; exact .dec rfl s.dec _ _
  | reqSetAddr | reqSetResplen | reqSetDelayLo | reqSetDelayHi | reqSetAttempts =>
    obtain rfl := Host.Outcome.next.inj h; exact .req rfl _ (by rfl) _ _
  | reqStatus | reqAvail => obtain rfl := Host.Outcome.next.inj h; exact .req rfl s.req (by rfl) _ _

/-- Settles O12: a command writes its own unit, and beside it the response, or the trace for `REQ_START`. -/
theorem unitsAreIsolated : Obligations.UnitsAreIsolated := by
  intro i s t hexec
  cases exec_answered hexec with
  | start hi =>
    subst hi
    exact ⟨fun _ => rfl, fun _ => rfl, fun _ => rfl, fun hne => absurd rfl hne, rfl, rfl, rfl, rfl, rfl⟩
  | crc hu =>
    exact ⟨fun hne => absurd hu hne, fun _ => rfl, fun _ => rfl, fun _ => ⟨rfl, rfl⟩, rfl, rfl, rfl, rfl, rfl⟩
  | enc hu =>
    exact ⟨fun _ => rfl, fun hne => absurd hu hne, fun _ => rfl, fun _ => ⟨rfl, rfl⟩, rfl, rfl, rfl, rfl, rfl⟩
  | dec hu =>
    exact ⟨fun _ => rfl, fun _ => rfl, fun hne => absurd hu hne, fun _ => ⟨rfl, rfl⟩, rfl, rfl, rfl, rfl, rfl⟩
  | req hu =>
    exact ⟨fun _ => rfl, fun _ => rfl, fun _ => rfl, fun hne => absurd hu hne, rfl, rfl, rfl, rfl, rfl⟩

/-- A query command answers `f = 1` and a byte that does not depend on the response before it. -/
theorem exec_of_query {i : Instr} (hi : i ∈ queryCommands) :
    ∃ answer : State → Byte, (∀ s, exec i s = .next (s.respond true (answer s))) ∧
      ∀ s resp, answer { s with resp := resp } = answer s := by
  simp only [queryCommands, List.mem_cons, List.not_mem_nil, or_false] at hi
  obtain rfl | rfl | rfl | rfl | rfl | rfl | rfl | rfl | rfl | rfl := hi
  all_goals exact ⟨_, fun _ => rfl, fun _ _ => rfl⟩

/-- Settles O15: the answer does not depend on the response before it, so a second query answers the same. -/
theorem queriesChangeOnlyTheResponse : Obligations.QueriesChangeOnlyTheResponse := by
  intro i hi s
  obtain ⟨answer, hexec, hsame⟩ := exec_of_query hi
  refine ⟨true, answer s, hexec s, ?_⟩
  rw [hexec, hsame s (some _)]
  rfl

theorem State.fetch_of_nil {s : State} (hcmds : s.hostCmds = []) : s.fetch = none := by simp [State.fetch, hcmds]

/-- Settles O8: the port takes the step and finds no command to fetch. -/
theorem nothingChangesBetweenCommands : Obligations.NothingChangesBetweenCommands := by
  intro s hready hcmds
  calc step s
    _ = commandStep s := step_of_ready hready
    _ = .next s := by simp [commandStep, State.fetch_of_nil hcmds]

end Sys2Proof.Machine
end

section
/-! PROOFS. The closed encoder's buffer is the wire frame of its payload (R63, R92, R123, R127). -/

namespace Sys2Proof.Machine

/-- A range from its first byte and the rest. -/
theorem loadRange_cons {size : Nat} {m : Memory} {lo n : Nat} {b : Byte} {bs : List Byte} (hlt : lo < size)
    (hread : m.read lo = some b) (hrest : loadRange size m (lo + 1) n = .ok bs) :
    loadRange size m lo (n + 1) = .ok (b :: bs) := by
  simp [loadRange, load_of_read hlt hread, hrest]

/-- Two ranges end to end. -/
theorem loadRange_append {size : Nat} {m : Memory} {lo n k : Nat} {xs ys : List Byte}
    (hxs : loadRange size m lo n = .ok xs) (hys : loadRange size m (lo + n) k = .ok ys) :
    loadRange size m lo (n + k) = .ok (xs ++ ys) := by
  induction n generalizing lo xs with
  | zero =>
    obtain rfl := Except.ok.inj hxs
    simpa using hys
  | succ n ih =>
    simp only [loadRange] at hxs
    split at hxs
    case h_1 => cases hxs
    case h_2 b hb =>
      split at hxs
      case h_1 => cases hxs
      case h_2 bs hbs =>
        obtain rfl := Except.ok.inj hxs
        obtain ⟨hlt, hread⟩ := (load_eq_ok _ _ _ _).1 hb
        rw [Nat.add_right_comm, List.cons_append]
        exact loadRange_cons hlt hread (ih hbs (by rwa [Nat.add_right_comm, Nat.add_assoc]))

theorem length_of_loadRange {size : Nat} {m : Memory} {lo n : Nat} {bs : List Byte} (h : loadRange size m lo n = .ok bs) :
    bs.length = n :=
  ((loadRange_eq_ok size m n lo bs).1 h).1

/-- Finalizing an encoder that holds payload `p` (R123): the checksum is that of the length and `p`. -/
theorem Encoder.finalize_of_payload {cap : Nat} {e : Encoder} {p : List Byte} (hlow : 2 ≤ e.total.toNat)
    (hroom : e.total.toNat + 1 < cap) (hload : loadRange cap e.buf 2 (e.total.toNat - 2) = .ok p) :
    e.finalize cap = .ok
      { buf := ((e.buf.write (e.total.toNat + 1) Config.endByte).write 1 (toByte (e.total.toNat + 2))).write
          e.total.toNat (crc8Seq 0x00#8 (toByte (e.total.toNat + 2) :: p))
        cur := 0#8, total := toByte (e.total.toNat + 2), isOpen := false } := by
  refine (Encoder.finalize_eq_ok cap e _).2 ⟨hroom, by omega, _, ?_, rfl⟩
  have hpayload : loadRange cap ((e.buf.write (e.total.toNat + 1) Config.endByte).write 1 (toByte (e.total.toNat + 2)))
      (1 + 1) (e.total.toNat - 2) = .ok p := by
    rw [← hload]
    refine loadRange_congr _ _ _ _ _ fun k hk => ?_
    rw [Memory.read_write_other _ _ (by omega), Memory.read_write_other _ _ (by omega)]
  rw [show e.total.toNat - 1 = e.total.toNat - 2 + 1 by omega]
  exact loadRange_cons (by omega) (Memory.read_write_same _ _ _) hpayload

/-- The five parts of a frame (R92), one after the other. -/
theorem loadRange_frameOf {cap : Nat} {m : Memory} {p : List Byte} (hroom : p.length + 4 ≤ cap)
    (hstart : m.read 0 = some Config.startByte) (hlength : m.read 1 = some (toByte (p.length + 4)))
    (hpayload : loadRange cap m 2 p.length = .ok p)
    (hcrc : m.read (2 + p.length) = some (crc8Seq 0x00#8 (toByte (p.length + 4) :: p)))
    (hend : m.read (2 + p.length + 1) = some Config.endByte) : loadRange cap m 0 (p.length + 4) = .ok (frameOf p) := by
  have htrailer : loadRange cap m (2 + p.length) 2 =
      .ok [crc8Seq 0x00#8 (toByte (p.length + 4) :: p), Config.endByte] :=
    loadRange_cons (by omega) hcrc (loadRange_cons (by omega) hend rfl)
  exact loadRange_cons (by omega) hstart (loadRange_cons (by omega) hlength (loadRange_append hpayload htrailer))

theorem execEncEnd_of_finalize {s : State} {e : Encoder} (hopen : s.enc.isOpen = true) (h : s.enc.finalize s.cap = .ok e) :
    execEncEnd s = .next ({ s with enc := e }.respond true (toByte (s.enc.total.toNat + 2))) := by
  simp [execEncEnd, hopen, h]

/-- Settles O25: the three stores of R123 complete the frame around the payload and leave the payload alone. -/
theorem encEndLeavesTheWholeFrame : Obligations.EncEndLeavesTheWholeFrame := by
  intro s p hopen hlow hhigh hstart hload
  obtain ⟨hcaplow, hcaphigh⟩ := s.cap_bounds
  have hfinal := Encoder.finalize_of_payload hlow (by omega) hload
  have htotal : s.enc.total.toNat = 2 + p.length := by have := length_of_loadRange hload; omega
  rw [htotal, Nat.add_sub_cancel_left] at hload
  simp only [htotal, show 2 + p.length + 2 = p.length + 4 by omega] at hfinal
  refine ⟨_, execEncEnd_of_finalize hopen hfinal, toNat_toByte_of_lt (by omega), rfl,
    loadRange_frameOf (by omega) ?_ ?_ ?_ ?_ ?_⟩ <;> dsimp only [State.respond_enc]
  · rw [Memory.read_write_other _ _ (by omega), Memory.read_write_other _ _ (by omega),
      Memory.read_write_other _ _ (by omega), hstart]
  · rw [Memory.read_write_other _ _ (by omega), Memory.read_write_same]
  · rw [← hload]
    refine loadRange_congr _ _ _ _ _ fun k hk => ?_
    rw [Memory.read_write_other _ _ (by omega), Memory.read_write_other _ _ (by omega),
      Memory.read_write_other _ _ (by omega)]
  · exact Memory.read_write_same _ _ _
  · rw [Memory.read_write_other _ _ (by omega), Memory.read_write_other _ _ (by omega), Memory.read_write_same]

end Sys2Proof.Machine
end

section
/-! PROOFS. Every buffer stays in canonical form and inside its bounds (R60, R62). -/

namespace Sys2Proof.Machine

theorem Encoder.Command.sound {cap : Nat} {e e' : Encoder} {i : Instr} (hcap : 4 ≤ cap) (hsound : e.buf.Sound cap)
    (h : e.Command cap i e') : e'.buf.Sound cap := by
  cases h with
  | keep | read => exact hsound
  | rearm => exact hsound.write (by omega) _
  | append b _ happend =>
    obtain ⟨hcur, rfl⟩ := (Encoder.append_eq_ok cap e e' b).1 happend
    exact hsound.write hcur _
  | finalize _ hfinal =>
    obtain ⟨hend, hlength, covered, -, rfl⟩ := (Encoder.finalize_eq_ok cap e e').1 hfinal
    exact ((hsound.write hend _).write hlength _).write (by omega) _

/-- Only a payload or checksum byte is stored, at a write index inside the buffer. -/
theorem Decoder.sound_of_write {cap : Nat} {D D' : Decoder} {b : Byte} {accepted : Bool} (hsound : D.buf.Sound cap)
    (h : D.write cap b = .ok (accepted, D')) : D'.buf.Sound cap := by
  obtain ⟨-, -, rfl⟩ | ⟨-, -, -, -, -, rfl⟩ | ⟨-, -, -, -, rfl⟩ | ⟨-, -, -, -, -, rfl⟩ | ⟨-, -, -, -, -, rfl⟩ |
    ⟨-, -, -, -, hwidx, -, rfl⟩ | ⟨-, -, -, -, -, -, rfl⟩ | ⟨-, -, -, -, -, -, hverify⟩ := Decoder.write_cases h
  · exact hsound -- a record in error
  · exact hsound -- START
  · exact hsound -- noise, and trailing bytes
  · exact hsound -- a length above the capacity
  · exact hsound -- the length
  · exact hsound.write hwidx b -- a payload byte or the checksum byte
  · exact hsound -- a terminal byte that is not END, or too early
  · -- the terminal byte END
    obtain ⟨_, _, -, -, ⟨-, -, rfl⟩ | ⟨-, -, rfl⟩⟩ := (Decoder.verify_eq_ok _ _ _ _).1 hverify
    · exact hsound
    · exact hsound

theorem Decoder.sound_of_feed {cap : Nat} {D D' : Decoder} {xs : List Byte} (hsound : D.buf.Sound cap)
    (h : D.feed cap xs = .ok D') : D'.buf.Sound cap := by
  induction xs generalizing D with
  | nil =>
    obtain rfl := Except.ok.inj h
    exact hsound
  | cons b xs ih =>
    obtain ⟨_, D1, hwrite, hfeed⟩ := (Decoder.feed_cons_eq_ok cap D D' b xs).1 h
    exact ih (Decoder.sound_of_write hsound hwrite) hfeed

theorem Decoder.Command.sound {cap : Nat} {D D' : Decoder} {i : Instr} (hsound : D.buf.Sound cap)
    (h : D.Command cap i D') : D'.buf.Sound cap := by
  cases h with
  | keep | clear | read => exact hsound
  | write b hwrite => exact Decoder.sound_of_write hsound hwrite

/-- No command stores into a buffer of the REQ unit. -/
theorem Requester.Command.bufs_eq {r r' : Requester} {i : Instr} (h : r.Command i r') :
    r'.rdec.buf = r.rdec.buf ∧ r'.rxbuf = r.rxbuf := by
  cases h <;> exact ⟨rfl, rfl⟩

/-- A micro-step stores into `rdec` when it feeds an answer, and into the receive buffer when it copies a payload. -/
theorem Requester.MicroStep.sound {cap : Nat} {r r' : Requester} (hdec : r.rdec.buf.Sound cap)
    (hrx : r.rxbuf.Sound (cap - 4)) (h : r.MicroStep cap r') : r'.rdec.buf.Sound cap ∧ r'.rxbuf.Sound (cap - 4) := by
  cases h with
  | answered xs _ hfeed => exact ⟨Decoder.sound_of_feed hdec hfeed, hrx⟩
  | success _ _ _ hstore =>
    obtain ⟨-, -, hkept⟩ := storeList_ok _ _ _ _ _ hstore
    exact ⟨hdec, hkept hrx⟩
  | _ => exact ⟨hdec, hrx⟩

/-- Settles O55: hardware reset leaves the buffers as after reset, and every store of a command or a micro-step is inside its
buffer. -/
theorem buffersStaySound : Obligations.BuffersStaySound := by
  intro s t hsound hstep
  obtain ⟨henc, hdec, hrdec, hrx⟩ := hsound
  obtain ⟨hlow, -⟩ := s.cap_bounds
  rw [State.BuffersSound, step_cap hstep]
  obtain ⟨-, rfl⟩ | ⟨-, -, -, he, hd, hr⟩ | ⟨-, -, i, _, -, heff⟩ | ⟨-, -, heff⟩ := step_effect hstep
  · exact State.resetWith_buffersSound s.maxPayload
  · rw [he, hd, hr]
    exact ⟨henc, hdec, hrdec, hrx⟩
  · obtain ⟨hrdec_eq, hrx_eq⟩ := heff.req.bufs_eq
    rw [hrdec_eq, hrx_eq]
    exact ⟨heff.enc.sound hlow henc, heff.dec.sound hdec, hrdec, hrx⟩
  · rw [heff.enc, heff.dec]
    exact ⟨henc, hdec, heff.req.sound hrdec hrx⟩

end Sys2Proof.Machine
end

section
/-! PROOFS. No access of a unit that meets its invariant faults: every index is inside the buffer and written (R25, R36, R49, R62). -/

namespace Sys2Proof.Machine

theorem load_exists {size : Nat} {m : Memory} {i : Nat} (hi : i < size) (hwritten : (m.read i).isSome = true) :
    ∃ v, load size m i = .ok v := by
  obtain ⟨v, hv⟩ := Option.isSome_iff_exists.1 hwritten
  exact ⟨v, load_of_read hi hv⟩

theorem loadPostInc_exists {size : Nat} {m : Memory} {c : Byte} (hc : c.toNat < size)
    (hwritten : (m.read c.toNat).isSome = true) : ∃ v, loadPostInc size m c = .ok (v, bump c) := by
  obtain ⟨v, hv⟩ := Option.isSome_iff_exists.1 hwritten
  exact ⟨v, (loadPostInc_eq_ok _ _ _ _ _).2 ⟨hc, hv, rfl⟩⟩

theorem isSome_read_of_loadRange {size : Nat} {m : Memory} {n i : Nat} {bs : List Byte} (h : loadRange size m 0 n = .ok bs)
    (hi : i < n) : (m.read i).isSome = true := by
  obtain ⟨hlen, hread⟩ := (loadRange_eq_ok size m n 0 bs).1 h
  obtain ⟨-, hbyte⟩ := hread i hi
  rw [Nat.zero_add] at hbyte
  simp [hbyte, hlen, hi]

/-! ### The encoder -/

theorem Encoder.Inv.append_exists {cap : Nat} {e : Encoder} (hinv : e.Inv cap) (hroom : e.accepts cap = true) (b : Byte) :
    ∃ e', e.append cap b = .ok e' := by
  obtain ⟨hopen, hfits⟩ := (Encoder.accepts_eq_true cap e).1 hroom
  obtain ⟨-, hcur, -⟩ := (Encoder.inv_iff_of_open hopen).1 hinv
  exact ⟨_, (Encoder.append_eq_ok cap e _ b).2 ⟨by rw [hcur]; omega, rfl⟩⟩

theorem Encoder.Inv.finalize_exists {cap : Nat} {e : Encoder} (hinv : e.Inv cap) (hopen : e.isOpen = true) :
    ∃ e', e.finalize cap = .ok e' := by
  obtain ⟨-, -, hlow, hhigh, hwritten⟩ := (Encoder.inv_iff_of_open hopen).1 hinv
  obtain ⟨p, hload, -⟩ := loadRange_exists cap e.buf (e.total.toNat - 2) 2 (by omega)
    fun k hk => hwritten (2 + k) (by omega) (by omega)
  exact ⟨_, Encoder.finalize_of_payload hlow (by omega) hload⟩

theorem Encoder.Inv.loadPostInc_exists {cap : Nat} {e : Encoder} (hinv : e.Inv cap) (hdata : e.readable = true) :
    ∃ v, loadPostInc cap e.buf e.cur = .ok (v, bump e.cur) := by
  obtain ⟨hclosed, hlt⟩ := (Encoder.readable_eq_true e).1 hdata
  obtain ⟨-, -, hhigh, -, -, -, hwritten, -⟩ := (Encoder.inv_iff_of_closed hclosed).1 hinv
  exact Machine.loadPostInc_exists (by omega) (hwritten _ hlt)

/-! ### A decoder record -/

/-- Every byte below the write index was stored (R41 (c)). -/
theorem Decoder.Inv.isSome_read {cap : Nat} {D : Decoder} (hinv : D.Inv cap) {i : Nat} (hi : i < D.widx.toNat) :
    (D.buf.read i).isSome = true := by
  obtain ⟨-, -, -, ⟨-, xs, -, hlen, hstored⟩, -⟩ := hinv
  rw [hstored i hi, List.getElem?_eq_getElem (by omega)]
  rfl

theorem Decoder.verify_exists {cap : Nat} {D : Decoder} (hlt : D.total.toNat - 4 < cap)
    (hwritten : ∀ i, i ≤ D.total.toNat - 4 → (D.buf.read i).isSome = true) :
    ∃ accepted D', D.verify cap = .ok (accepted, D') := by
  obtain ⟨payload, hpayload, -⟩ := loadRange_exists cap D.buf (D.total.toNat - 4) 0 (by omega)
    fun k hk => hwritten (0 + k) (by omega)
  obtain ⟨received, hreceived⟩ := load_exists hlt (hwritten _ le_rfl)
  by_cases hcrc : crc8Seq 0x00#8 (D.explen :: payload) = received
  · exact ⟨_, _, (Decoder.verify_eq_ok _ _ _ _).2 ⟨payload, received, hpayload, hreceived, .inl ⟨hcrc, rfl, rfl⟩⟩⟩
  · exact ⟨_, _, (Decoder.verify_eq_ok _ _ _ _).2 ⟨payload, received, hpayload, hreceived, .inr ⟨hcrc, rfl, rfl⟩⟩⟩

theorem Decoder.takePayload_exists {cap : Nat} {D : Decoder} (hwidx : D.widx.toNat < cap) (b : Byte) :
    ∃ accepted D', D.takePayload cap b = .ok (accepted, D') := by
  rw [Decoder.takePayload, (storePostInc_eq_ok cap D.buf _ D.widx b _).2 ⟨hwidx, rfl, rfl⟩]
  exact ⟨_, _, rfl⟩

/-- At the terminal byte the payload and the checksum byte are exactly what lies below the write index. -/
theorem Decoder.Inv.takeTerminal_exists {cap : Nat} {D : Decoder} (hlow : 4 ≤ cap) (hhigh : cap ≤ 255) (hinv : D.Inv cap)
    (hopen : D.isOpen = true) (b : Byte) : ∃ accepted D', D.takeTerminal cap b = .ok (accepted, D') := by
  obtain ⟨hcounts, -⟩ := (Decoder.inv_iff hhigh D).1 hinv
  obtain ⟨htotal, -, -, -, hwidx, -, hwidx_cap⟩ := (Decoder.counts_iff_of_open hopen).1 hcounts
  rw [Decoder.takeTerminal]
  split_ifs with hb hfour
  · exact ⟨_, _, rfl⟩
  · exact ⟨_, _, rfl⟩
  · have hsucc : (toByte (D.total.toNat + 1)).toNat - 4 + 1 = D.widx.toNat := by rw [toNat_toByte]; omega
    exact Decoder.verify_exists (by dsimp only; omega) fun i hi => hinv.isSome_read (by dsimp only at hi; omega)

theorem Decoder.Inv.write_exists {cap : Nat} {D : Decoder} (hlow : 4 ≤ cap) (hhigh : cap ≤ 255) (hinv : D.Inv cap)
    (b : Byte) : ∃ accepted D', D.write cap b = .ok (accepted, D') := by
  rw [Decoder.write]
  split_ifs with herr hclosed hstart hlength hbefore
  · exact ⟨_, _, rfl⟩
  · exact ⟨_, _, rfl⟩
  · exact ⟨_, _, rfl⟩
  · exact ⟨_, _, rfl⟩
  · obtain ⟨-, -, -, ⟨hwidx, -⟩, -⟩ := hinv
    exact Decoder.takePayload_exists (by omega) b
  · exact hinv.takeTerminal_exists hlow hhigh (by simpa using hclosed) b

theorem Decoder.Inv.feed_exists {cap : Nat} {D : Decoder} (hlow : 4 ≤ cap) (hhigh : cap ≤ 255) (hinv : D.Inv cap)
    (xs : List Byte) : ∃ D', D.feed cap xs = .ok D' := by
  induction xs generalizing D with
  | nil => exact ⟨D, rfl⟩
  | cons b xs ih =>
    obtain ⟨accepted, D1, hwrite⟩ := hinv.write_exists hlow hhigh b
    obtain ⟨D', hfeed⟩ := ih (hinv.write hlow hhigh hwrite)
    exact ⟨D', (Decoder.feed_cons_eq_ok cap D D' b xs).2 ⟨accepted, D1, hwrite, hfeed⟩⟩

theorem Decoder.Inv.payload_exists {cap : Nat} {D : Decoder} (hinv : D.Inv cap) (hok : D.doneOk = true) :
    D.paylen.toNat ≤ cap - 4 ∧ ∃ payload, loadRange cap D.buf 0 D.paylen.toNat = .ok payload := by
  obtain ⟨⟨htotal, -⟩, -, -, -, hdone, -⟩ := hinv
  obtain ⟨-, -, hpaylen, -, -, payload, hload, -⟩ := hdone hok
  exact ⟨by omega, payload, hload⟩

theorem Decoder.Inv.loadPostInc_exists {cap : Nat} {D : Decoder} (hinv : D.Inv cap) (hdata : D.readable = true) :
    ∃ v, loadPostInc cap D.buf D.ridx = .ok (v, bump D.ridx) := by
  obtain ⟨hok, hlt⟩ := (Decoder.readable_eq_true D).1 hdata
  obtain ⟨hroom, payload, hload⟩ := hinv.payload_exists hok
  exact Machine.loadPostInc_exists (by omega) (isSome_read_of_loadRange hload hlt)

/-! ### The requester -/

/-- A receive buffer with bytes left holds the payload of a finished request (R49, R52). -/
theorem Requester.Inv.loadPostInc_exists {cap : Nat} {r : Requester} (hinv : r.Inv cap) (hdata : r.readable = true) :
    ∃ v, loadPostInc (cap - 4) r.rxbuf r.rxcur = .ok (v, bump r.rxcur) := by
  have hlt := r.readable_eq_true.1 hdata
  obtain ⟨-, ⟨⟨-, hlen⟩, hnone, hpayload⟩, -⟩ := (Requester.inv_iff cap r).1 hinv
  have hstatus : r.status = .packetRead := by
    by_contra hne
    simp [hnone hne] at hlt
  obtain ⟨-, -, hbytes⟩ := hpayload hstatus
  obtain ⟨hwritten, -⟩ := hbytes _ hlt
  exact Machine.loadPostInc_exists (by omega) hwritten

theorem takePayload_exists {s : State} (hinv : s.req.rdec.Inv s.cap) (hok : s.req.rdec.doneOk = true) :
    ∃ t, takePayload s = .ok t := by
  obtain ⟨hroom, payload, hload⟩ := hinv.payload_exists hok
  obtain ⟨m, hstore⟩ := storeList_exists (s.cap - 4) payload s.req.rxbuf 0 (by rw [length_of_loadRange hload]; omega)
  exact ⟨_, (takePayload_eq_ok s _).2 ⟨payload, m, hload, hstore, rfl⟩⟩

theorem microPoll_exists {s : State} (hinv : s.req.rdec.Inv s.cap) : ∃ t, microPoll s = .ok t := by
  obtain ⟨hlow, hhigh⟩ := s.cap_bounds
  match hpolls : s.envPolls with
  | [] => exact ⟨_, (microPoll_eq_ok s _).2 (.inl ⟨hpolls, rfl⟩)⟩
  | [] :: rest => exact ⟨_, (microPoll_eq_ok s _).2 (.inr (.inl ⟨rest, hpolls, rfl⟩))⟩
  | (b :: bs) :: rest =>
    obtain ⟨D, hfeed⟩ := hinv.feed_exists hlow hhigh (b :: bs)
    exact ⟨_, (microPoll_eq_ok s _).2 (.inr (.inr ⟨b, bs, rest, D, hpolls, hfeed, rfl⟩))⟩

theorem microEval_exists {s : State} (hinv : s.req.rdec.Inv s.cap) : ∃ t, microEval s = .ok t := by
  rw [microEval]
  split_ifs with hok
  · exact takePayload_exists hinv hok
  · exact ⟨_, rfl⟩
  · exact ⟨_, rfl⟩

/-! ### A step -/

theorem requesterStep_goes {s : State} (hinv : s.req.rdec.Inv s.cap) : ∃ t, requesterStep s = .next t := by
  unfold requesterStep
  split
  case h_5 =>
    obtain ⟨t, ht⟩ := microPoll_exists hinv
    exact ⟨t, (outcomeOf_eq_next _ _).2 ht⟩
  case h_6 =>
    obtain ⟨t, ht⟩ := microEval_exists hinv
    exact ⟨t, (outcomeOf_eq_next _ _).2 ht⟩
  all_goals exact ⟨_, rfl⟩

/-- No command faults on units that meet their invariants; only six of the 27 access a buffer where they could. -/
theorem exec_goes {s : State} (henc : s.enc.Inv s.cap) (hdec : s.dec.Inv s.cap) (hreq : s.req.Inv s.cap) (i : Instr) :
    ∃ t, exec i s = .next t := by
  cases i with
  | encWrite b =>
    simp only [exec, execEncWrite]
    split_ifs with hroom
    · obtain ⟨e, he⟩ := henc.append_exists hroom b
      exact ⟨_, by rw [he]⟩
    · exact ⟨_, rfl⟩
  | encEnd =>
    simp only [exec, execEncEnd]
    split_ifs with hopen
    · obtain ⟨e, he⟩ := henc.finalize_exists hopen
      exact ⟨_, by rw [he]⟩
    · exact ⟨_, rfl⟩
  | encRead =>
    simp only [exec, execEncRead]
    split_ifs with hdata
    · obtain ⟨v, hv⟩ := henc.loadPostInc_exists hdata
      exact ⟨_, by rw [hv]⟩
    · exact ⟨_, rfl⟩
  | decWrite b =>
    obtain ⟨hlow, hhigh⟩ := s.cap_bounds
    obtain ⟨accepted, D, hD⟩ := hdec.write_exists hlow hhigh b
    simp only [exec, execDecWrite]
    exact ⟨_, by rw [hD]⟩
  | decRead =>
    simp only [exec, execDecRead]
    split_ifs with hdata
    · obtain ⟨v, hv⟩ := hdec.loadPostInc_exists hdata
      exact ⟨_, by rw [hv]⟩
    · exact ⟨_, rfl⟩
  | reqRead =>
    simp only [exec, execReqRead]
    split_ifs with hdata
    · obtain ⟨v, hv⟩ := hreq.loadPostInc_exists hdata
      exact ⟨_, by rw [hv]⟩
    · exact ⟨_, rfl⟩
  | _ => exact ⟨_, rfl⟩

theorem commandStep_goes {s : State} (henc : s.enc.Inv s.cap) (hdec : s.dec.Inv s.cap) (hreq : s.req.Inv s.cap) :
    ∃ t, commandStep s = .next t := by
  match hcmds : s.hostCmds with
  | [] => exact ⟨s, by simp [commandStep, State.fetch_of_nil hcmds]⟩
  | w :: rest =>
    have hfetch := State.fetch_of_cons hcmds
    cases hdecode : decode w with
    | instr i =>
      rw [commandStep_of_decode_instr hfetch hdecode]
      exact exec_goes (s := { s with hostCmds := rest }) henc hdec hreq i
    | illegal why => exact ⟨State.respondIllegal { s with hostCmds := rest }, by simp only [commandStep, hfetch, hdecode]⟩

theorem State.Inv.goes {s : State} (hinv : s.Inv) : s.Goes := by
  obtain ⟨-, henc, hdec, hreq, -⟩ := hinv
  obtain ⟨hrdec, -⟩ := (Requester.inv_iff _ _).1 hreq
  rw [State.Goes, step]
  split_ifs
  · exact ⟨_, rfl⟩
  · exact commandStep_goes henc hdec hreq
  · exact requesterStep_goes hrdec

end Sys2Proof.Machine
end

section
/-! PROOFS. The port's side of the invariant (R82, R209), and the machine never stops (R62, R250). -/

namespace Sys2Proof.Machine

/-- Where no response is available. -/
theorem State.portInv_of_resp_none {s : State} (h : s.resp = none) : s.PortInv :=
  ⟨fun _ => h, fun w hw => by simp [h] at hw⟩

/-- Where a command of an idle block has been answered; `d` is `0x00` and `f` is 0 in an illegal word's answer. -/
theorem State.portInv_of_resp {s : State} {ill f : Bool} {d : Byte} (hidle : s.req.state = .idle)
    (hresp : s.resp = some (respWord ill f d)) (hill : ill = true → f = false ∧ d = 0#8) : s.PortInv := by
  refine ⟨fun hrun => absurd hidle hrun, fun w hw hbit => ?_⟩
  obtain rfl : respWord ill f d = w := by simpa [hresp] using hw
  rw [respWord_ill] at hbit
  obtain ⟨rfl, rfl⟩ := hill hbit
  subst hbit
  decide

theorem exec_portInv {i : Instr} {s t : State} (hidle : s.req.state = .idle) (h : exec i s = .next t) : t.PortInv := by
  cases exec_answered h with
  | start => exact State.portInv_of_resp_none rfl
  | crc | enc | dec => exact State.portInv_of_resp hidle rfl nofun
  | req _ r hstate => exact State.portInv_of_resp (hstate.trans hidle) rfl nofun

/-- A micro-step leaves the port as it is or finishes the request (R202). -/
theorem requesterStep_resp {s t : State} (h : requesterStep s = .next t) :
    t.resp = s.resp ∨ (t.req.state = .idle ∧ ∃ f d, t.resp = some (respWord false f d)) := by
  unfold requesterStep at h
  split at h
  case h_1 => obtain rfl := Host.Outcome.next.inj h; exact .inl rfl
  case h_2 =>
    obtain rfl := Host.Outcome.next.inj h
    unfold microCheck
    split
    case isTrue => exact .inl rfl
    case isFalse => exact .inr ⟨rfl, _, _, rfl⟩
  case h_3 => obtain rfl := Host.Outcome.next.inj h; rw [microTrig_eq]; exact .inl rfl
  case h_4 =>
    obtain rfl := Host.Outcome.next.inj h
    rw [microWait_eq]
    split <;> exact .inl rfl
  case h_5 =>
    obtain ⟨-, rfl⟩ | ⟨_, -, rfl⟩ | ⟨_, _, _, _, -, -, rfl⟩ := (microPoll_eq_ok s t).1 ((outcomeOf_eq_next _ _).1 h)
    · exact .inl rfl
    · exact .inr ⟨rfl, _, _, rfl⟩
    · exact .inl rfl
  case h_6 =>
    have hmicro := (outcomeOf_eq_next _ _).1 h
    unfold microEval at hmicro
    split_ifs at hmicro
    · obtain ⟨_, _, -, -, rfl⟩ := (takePayload_eq_ok s t).1 hmicro
      exact .inr ⟨rfl, _, _, rfl⟩
    · obtain rfl := Except.ok.inj hmicro; exact .inl rfl
    · obtain rfl := Except.ok.inj hmicro; exact .inl rfl

theorem step_portInv {s t : State} (hinv : s.PortInv) (h : step s = .next t) : t.PortInv := by
  obtain ⟨-, rfl⟩ | ⟨-, -, -, rfl⟩ | ⟨-, hidle, w, rest, i, -, -, hexec⟩ | ⟨-, hidle, w, rest, why, -, -, rfl⟩ |
    ⟨-, hrun, hmicro⟩ := (step_eq_next s t).1 h
  · exact State.portInv_of_resp_none rfl
  · exact hinv
  · exact exec_portInv (by exact hidle) hexec
  · exact State.portInv_of_resp hidle rfl fun _ => ⟨rfl, rfl⟩
  · obtain hkept | ⟨hidle, f, d, hresp⟩ := requesterStep_resp hmicro
    · exact State.portInv_of_resp_none (hkept.trans (hinv.1 hrun))
    · exact State.portInv_of_resp hidle hresp nofun

/-- Settles O56: no access faults, and each part of the invariant is kept on its own. -/
theorem machineNeverStops : Obligations.MachineNeverStops := by
  intro s hinv
  obtain ⟨t, hstep⟩ := hinv.goes
  obtain ⟨hbufs, henc, hdec, hreq, hport⟩ := hinv
  exact ⟨t, hstep, buffersStaySound s t hbufs hstep, encoderInvariantIsKept s t henc hstep,
    decoderInvariantIsKept s t hdec hstep, requesterInvariantIsKept s t hreq hstep, step_portInv hport hstep⟩

end Sys2Proof.Machine
end

section
/-! PROOFS. The decoder's map, said once, and how it agrees with the encoder and with the legality check (R80, R81, R85, R86). -/

namespace Sys2Proof

/-! ### The fields of a command -/

theorem Instr.operand_of_formatN {i : Instr} (h : i.format = .formatN) : i.operand = 0#8 := by
  cases i with
  | crcCalc | crcUpdate | encWrite | decWrite => cases h
  | reqSetAddr | reqSetResplen | reqSetDelayLo | reqSetDelayHi | reqSetAttempts => cases h
  | _ => rfl

/-- A command carries at most an operand byte, and any byte is a legal operand (R81, R89). -/
theorem Instr.wellFormed_eq_true (i : Instr) : i.wellFormed = true := by
  unfold Instr.wellFormed
  split
  case h_1 hN => simp [Instr.operand_of_formatN hN]
  case h_2 => rfl

/-- The opcodes of the four units fill each unit's low nibbles from 0 up (R85). -/
theorem opcodeKnown_iff (opc : Byte) :
    opcodeKnown opc = true ↔
      (0x10 ≤ opc.toNat ∧ opc.toNat ≤ 0x13) ∨ (0x20 ≤ opc.toNat ∧ opc.toNat ≤ 0x25) ∨
      (0x30 ≤ opc.toNat ∧ opc.toNat ≤ 0x37) ∨ (0x40 ≤ opc.toNat ∧ opc.toNat ≤ 0x48) := by
  rw [opcodeKnown, decide_eq_true_iff]
  unfold opcodesOfUnit
  split
  case h_5 =>
    simp only [imp_false] at *
    omega
  all_goals omega

theorem opcodeKnown_opcodeOf (i : Instr) : opcodeKnown (opcodeOf i) = true := by
  rw [opcodeKnown_iff]
  cases i <;> simp [opcodeOf]

/-- R81's list of format B opcodes is the list of format B commands. -/
theorem opcodeTakesByte_opcodeOf (i : Instr) : opcodeTakesByte (opcodeOf i) = (i.format == .formatB) := by
  cases i <;> rfl

/-! ### The decoder -/

theorem ofFormatN_zero (i : Instr) : ofFormatN i 0#8 = .instr i := if_pos rfl

theorem ofFormatN_of_ne {imm8 : Byte} (h : imm8 ≠ 0#8) (i : Instr) : ofFormatN i imm8 = .illegal .operandNotZero := if_neg h

/-- Everything the decoder can make of a word: the opcode is outside the map, a format N command's, or a format B command's. -/
theorem decode_cases (w : CmdWord) :
    (opcodeKnown (opcField w) = false ∧ decode w = .illegal .unknownOpcode) ∨
    (∃ i : Instr, decode w = ofFormatN i (immField w) ∧ opcField w = opcodeOf i ∧ i.format = .formatN) ∨
    (∃ i : Instr, decode w = .instr i ∧ opcField w = opcodeOf i ∧ i.format = .formatB) := by
  unfold decode
  dsimp only
  split
  case h_1 | h_4 | h_5 | h_7 | h_8 | h_9 | h_10 | h_11 | h_13 | h_14 | h_15 | h_16 | h_17 | h_18 | h_24 | h_25 | h_26 | h_27 =>
    rename_i hopc
    exact .inr (.inl ⟨_, rfl, BitVec.eq_of_toNat_eq hopc, rfl⟩)
  case h_2 | h_3 | h_6 | h_12 | h_19 | h_20 | h_21 | h_22 | h_23 =>
    rename_i hopc
    exact .inr (.inr ⟨_, rfl, BitVec.eq_of_toNat_eq hopc, rfl⟩)
  case h_28 =>
    refine .inl ⟨Bool.eq_false_iff.2 fun hknown => ?_, rfl⟩
    have hrange := (opcodeKnown_iff _).1 hknown
    simp only [imp_false] at *
    omega

/-- The arm of the command's own opcode is taken; of a format N command it reads the operand field `0x00`. -/
theorem decode_encode (i : Instr) : decode (encode i) = .instr i := by
  simp only [decode, encode, opcField_append, immField_append]
  cases i with
  | crcCalc | crcUpdate | encWrite | decWrite => rfl
  | reqSetAddr | reqSetResplen | reqSetDelayLo | reqSetDelayHi | reqSetAttempts => rfl
  | _ => exact ofFormatN_zero _

/-- Settles O2: no operand byte is lost, and of a format N command the operand field is `0x00`. -/
theorem decodeOfEncodeIsTheCommand : Obligations.DecodeOfEncodeIsTheCommand :=
  fun i _ => decode_encode i

/-- Settles O3: the arm that reads the command has its opcode, and keeps or checks the operand field. -/
theorem encodeOfDecodeIsTheWord : Obligations.EncodeOfDecodeIsTheWord :=
  fun _ i hdecode => ⟨i.wellFormed_eq_true, encode_of_decode hdecode⟩

theorem wordLegal_iff (w : CmdWord) :
    wordLegal w = true ↔ opcodeKnown (opcField w) = true ∧ (opcodeTakesByte (opcField w) = true ∨ immField w = 0#8) := by
  simp [wordLegal, operandAllowed, opcField, immField]

/-- Settles O4, by what the decoder can make of a word; a format N opcode leaves its operand field to decide. -/
theorem illegalWordsAreThoseOutsideTheMap : Obligations.IllegalWordsAreThoseOutsideTheMap := by
  intro w
  rw [wordLegal_iff]
  change (_ ↔ opcodeKnown (opcField w) = false) ∧
    (_ ↔ opcodeKnown (opcField w) = true ∧ opcodeTakesByte (opcField w) = false ∧ immField w ≠ 0#8) ∧ _
  obtain ⟨hunknown, hdecode⟩ | ⟨i, hdecode, hopc, hformat⟩ | ⟨i, hdecode, hopc, hformat⟩ := decode_cases w
  · simp [hdecode, hunknown]
  · by_cases himm : immField w = 0#8
    · rw [himm, ofFormatN_zero] at hdecode
      simp [hdecode, hopc, opcodeKnown_opcodeOf, himm]
    · rw [ofFormatN_of_ne himm] at hdecode
      simp [hdecode, hopc, opcodeKnown_opcodeOf, opcodeTakesByte_opcodeOf, hformat, himm]
  · simp [hdecode, hopc, opcodeKnown_opcodeOf, opcodeTakesByte_opcodeOf, hformat]

/-- Settles O1: the decoder runs on each word. -/
theorem decodeReadsWrittenOutWords : Obligations.DecodeReadsWrittenOutWords := by
  unfold Obligations.DecodeReadsWrittenOutWords
  decide

end Sys2Proof
end

section
/-! PROOFS. The response word and the response of a command (R82, R83, R84, R253). -/

namespace Sys2Proof.Machine

/-- Settles O5: "no data" and a byte differ in `f`. -/
theorem responseWordHasTheThreeFields : Obligations.ResponseWordHasTheThreeFields := by
  intro ill f d b
  refine ⟨respWord_ill ill f d, respWord_flag ill f d, respWord_data ill f d, fun h => ?_⟩
  obtain ⟨-, hflag, -⟩ := (respWord_eq_iff _ _ _ _ _ _).1 h
  cases hflag

/-- How command `i` ends: in a fault, with `f = 1` and a byte, rejected (R253), or with its response to come (R196). -/
inductive Answers (i : Instr) : Host.Outcome State Fault Refusal → Prop where
  /-- an access of a buffer where it has no byte -/
  | fault (r : Fault) : Answers i (.fault r)
  /-- carried out -/
  | accepted (s : State) (d : Byte) : Answers i (.next (s.respond true d))
  /-- rejected or "no data" (R84, R253) -/
  | rejected (hi : mayReject i = true) (s : State) : Answers i (.next (s.respond false 0x00#8))
  /-- `REQ_START` (R196) -/
  | pending (hi : i = .reqStart) {s : State} (hresp : s.resp = none) : Answers i (.next s)

theorem exec_answers (i : Instr) (s : State) : Answers i (exec i s) := by
  cases i with
  | encWrite | encEnd | encRead | decRead | reqRead =>
    simp only [exec, execEncWrite, execEncEnd, execEncRead, execDecRead, execReqRead]
    split
    case isTrue =>
      split
      case h_1 => exact .fault _
      case h_2 => exact .accepted _ _
    case isFalse => exact .rejected rfl s
  | decWrite =>
    simp only [exec, execDecWrite]
    split
    case h_1 => exact .fault _
    case h_2 ok D _ =>
      cases ok with
      | true => exact .accepted _ _
      | false => exact .rejected rfl _
  | reqStart => exact .pending rfl rfl
  | _ => exact .accepted _ _

/-- Settles O13, by how a command ends. -/
theorem everyCommandAnswersOneResponse : Obligations.EveryCommandAnswersOneResponse := by
  intro i s
  have hanswers := exec_answers i s
  refine ⟨fun r hrefused => ?_, fun t hnext => ?_⟩
  · rw [hrefused] at hanswers
    cases hanswers
  · rw [hnext] at hanswers
    cases hanswers with
    | accepted s' d => exact .inr ⟨true, d, rfl, fun _ => rfl, nofun⟩
    | rejected hi s' => exact .inr ⟨false, 0x00#8, rfl, fun hnot => by simp [hi] at hnot, fun _ => rfl⟩
    | pending hi hresp => exact .inl ⟨hi, hresp⟩

end Sys2Proof.Machine
end

section
/-! PROOFS. The Checksum Engine (41_crc.md): the bit loop of R101 is linear and each of its turns can be undone, and what follows for one byte and for a sequence (R107, R108); the four commands (R103 to R106). -/

namespace Sys2Proof.Machine

/-! ### One turn of the bit loop (R101) -/

/-- What a turn XORs into the shifted accumulator: R100's feedback value where the mix bit is 1. -/
def crc8Feedback (mix : Bool) : Byte := if mix = true then 0x8C#8 else 0#8

theorem crc8Bit_eq_shift_xor_feedback (acc : Byte) (d : Bool) :
    crc8Bit acc d = (acc >>> 1) ^^^ crc8Feedback (acc.getLsbD 0 ^^ d) := by
  unfold crc8Bit crc8Feedback
  split
  case isTrue => rfl
  case isFalse => exact BitVec.xor_zero.symm

theorem crc8Feedback_xor (p q : Bool) : crc8Feedback (p ^^ q) = crc8Feedback p ^^^ crc8Feedback q := by
  cases p <;> cases q <;> rfl

theorem crc8Feedback_getLsbD_seven (mix : Bool) : (crc8Feedback mix).getLsbD 7 = mix := by
  cases mix <;> rfl

/-- A turn is linear in the accumulator and the data bit together. -/
theorem crc8Bit_xor (acc acc' : Byte) (d d' : Bool) :
    crc8Bit (acc ^^^ acc') (d ^^ d') = crc8Bit acc d ^^^ crc8Bit acc' d' := by
  have hmix : ((acc ^^^ acc').getLsbD 0 ^^ (d ^^ d')) = ((acc.getLsbD 0 ^^ d) ^^ (acc'.getLsbD 0 ^^ d')) := by
    rw [BitVec.getLsbD_xor, Bool.xor_assoc, Bool.xor_assoc, Bool.xor_left_comm d]
  simp only [crc8Bit_eq_shift_xor_feedback]
  rw [hmix, crc8Feedback_xor, BitVec.ushiftRight_xor_distrib]
  ac_rfl

/-- Where the data bit is the accumulator's low bit, a turn is a shift. -/
theorem crc8Bit_getLsbD_zero (acc : Byte) : crc8Bit acc (acc.getLsbD 0) = acc >>> 1 := by
  simp [crc8Bit]

/-- The shift leaves bit 7 clear and `0x8C` has it set, so bit 7 after a turn says whether the feedback was applied. -/
theorem crc8Bit_getLsbD_seven (acc : Byte) (d : Bool) : (crc8Bit acc d).getLsbD 7 = (acc.getLsbD 0 ^^ d) := by
  rw [crc8Bit_eq_shift_xor_feedback, BitVec.getLsbD_xor, BitVec.getLsbD_ushiftRight, BitVec.getLsbD_of_ge acc _ (by decide),
    Bool.false_xor, crc8Feedback_getLsbD_seven]

/-- A byte is its low bit and the seven bits that a shift keeps. -/
theorem eq_of_low_bit_of_shift {a a' : Byte} (hlow : a.getLsbD 0 = a'.getLsbD 0) (hshift : a >>> 1 = a' >>> 1) : a = a' := by
  refine BitVec.eq_of_getLsbD_eq fun i _ => ?_
  cases i with
  | zero => exact hlow
  | succ n => simpa [Nat.add_comm] using congrArg (·.getLsbD n) hshift

/-- A turn can be undone: bit 7 tells the feedback, and so the low bit that was shifted out. -/
theorem crc8Bit_injective (d : Bool) : Function.Injective (crc8Bit · d) := by
  intro a a' (h : crc8Bit a d = crc8Bit a' d)
  have hmix : (a.getLsbD 0 ^^ d) = (a'.getLsbD 0 ^^ d) := by
    rw [← crc8Bit_getLsbD_seven, h, crc8Bit_getLsbD_seven]
  rw [crc8Bit_eq_shift_xor_feedback, crc8Bit_eq_shift_xor_feedback, hmix] at h
  exact eq_of_low_bit_of_shift (Bool.xor_left_inj.1 hmix) ((BitVec.xor_left_inj _).1 h)

/-! ### The bit loop -/

/-- The accumulator after the first `n` turns of R101's loop over the bits of `b`. -/
def crc8Bits (a b : Byte) : Nat → Byte
  | 0 => a
  | n + 1 => crc8Bit (crc8Bits a b n) (b.getLsbD n)

theorem crc8Step_eq_crc8Bits (a b : Byte) : crc8Step a b = crc8Bits a b 8 := rfl

theorem crc8Bits_xor (a a' b b' : Byte) (n : Nat) :
    crc8Bits (a ^^^ a') (b ^^^ b') n = crc8Bits a b n ^^^ crc8Bits a' b' n := by
  induction n with
  | zero => rfl
  | succ n ih => simp only [crc8Bits, ih, BitVec.getLsbD_xor, crc8Bit_xor]

/-- A byte fed to itself is shifted out, and the feedback never applied. -/
theorem crc8Bits_self (b : Byte) (n : Nat) : crc8Bits b b n = b >>> n := by
  induction n with
  | zero => rfl
  | succ n ih =>
    have hbit : b.getLsbD n = (b >>> n).getLsbD 0 := by simp
    rw [crc8Bits, ih, hbit, crc8Bit_getLsbD_zero, BitVec.shiftRight_add]

theorem crc8Bits_injective (b : Byte) (n : Nat) : Function.Injective (crc8Bits · b n) := by
  induction n with
  | zero => exact Function.injective_id
  | succ n ih => exact (crc8Bit_injective (b.getLsbD n)).comp ih

/-! ### One byte (R108 (a) to (d)) -/

theorem crc8Step_xor (a a' b b' : Byte) : crc8Step (a ^^^ a') (b ^^^ b') = crc8Step a b ^^^ crc8Step a' b' :=
  crc8Bits_xor a a' b b' 8

@[simp] theorem crc8Step_self (b : Byte) : crc8Step b b = 0x00#8 := by
  rw [crc8Step_eq_crc8Bits, crc8Bits_self]
  exact BitVec.ushiftRight_eq_zero (le_refl 8)

theorem crc8Step_eq_crc8Step_xor_zero (a b : Byte) : crc8Step a b = crc8Step (a ^^^ b) 0x00#8 :=
  calc crc8Step a b = crc8Step a b ^^^ crc8Step b b := by rw [crc8Step_self, BitVec.xor_zero]
    _ = crc8Step (a ^^^ b) (b ^^^ b) := (crc8Step_xor a b b b).symm
    _ = crc8Step (a ^^^ b) 0x00#8 := by rw [BitVec.xor_self]

theorem crc8Step_comm (a b : Byte) : crc8Step a b = crc8Step b a := by
  rw [crc8Step_eq_crc8Step_xor_zero a, crc8Step_eq_crc8Step_xor_zero b, BitVec.xor_comm]

theorem crc8Step_bijective_acc (b : Byte) : Function.Bijective (crc8Step · b) :=
  Finite.injective_iff_bijective.1 (crc8Bits_injective b 8)

theorem crc8Step_bijective_data (a : Byte) : Function.Bijective (crc8Step a) := by
  rw [funext (crc8Step_comm a)]
  exact crc8Step_bijective_acc a

/-- Settles O19: the loop is linear, and a byte fed to itself gives 0, so the step depends on the XOR alone; each turn can be
undone. -/
theorem crcStepIsLinearAndInvertible : Obligations.CrcStepIsLinearAndInvertible :=
  ⟨crc8Step_self 0x00#8, crc8Step_xor, crc8Step_eq_crc8Step_xor_zero, crc8Step_bijective_acc, crc8Step_bijective_data⟩

/-! ### Byte sequences (R107, R108 (e) and (g)) -/

theorem crc8Seq_append (a : Byte) (xs ys : List Byte) : crc8Seq a (xs ++ ys) = crc8Seq (crc8Seq a xs) ys := by
  induction xs generalizing a with
  | nil => rfl
  | cons x xs ih => exact ih (crc8Step a x)

/-- Settles O18, by induction on the first part, whose head is one step of the start value. -/
theorem crcIncrementalEquivalence : Obligations.CrcIncrementalEquivalence := crc8Seq_append

/-- The start accumulator can be told from the checksum of any one sequence. -/
theorem crc8Seq_injective (xs : List Byte) : Function.Injective (crc8Seq · xs) := by
  induction xs with
  | nil => exact Function.injective_id
  | cons x xs ih => exact ih.comp (crc8Step_bijective_acc x).injective

/-- Settles O20: the last step takes the checksum against itself. -/
theorem checksumAppendedLeavesResidueZero : Obligations.ChecksumAppendedLeavesResidueZero := by
  intro xs
  rw [crc8Seq_append, crc8Seq_cons, crc8Seq_nil, crc8Step_self]

theorem xor_bit_ne {k : Nat} (hk : k < 8) (b : Byte) : b ≠ b ^^^ (1#8 <<< k) := by
  intro h
  have hbit := congrArg (·.getLsbD k) h
  simp [hk] at hbit

/-- Settles O21: the flipped byte gives another accumulator, and the bytes after it keep the two apart. -/
theorem singleBitFlipChangesTheChecksum : Obligations.SingleBitFlipChangesTheChecksum := by
  intro a before after b k hk heq
  rw [crc8Seq_append, crc8Seq_append, crc8Seq_cons, crc8Seq_cons] at heq
  have hstep := crc8Seq_injective after heq
  exact xor_bit_ne hk b ((crc8Step_bijective_data _).injective hstep)

/-! ### The commands (R103 to R106) -/

/-- Settles O17: each command's arm is run, and each writes the accumulator and the response at most. -/
theorem crcCommandsSetTheAccumulator : Obligations.CrcCommandsSetTheAccumulator :=
  fun _ _ => ⟨⟨rfl, rfl, rfl, rfl⟩, rfl, rfl, rfl, rfl⟩

end Sys2Proof.Machine
end

section
/-! PROOFS. The ENC unit's six commands, branch by branch (R121 to R126). -/

namespace Sys2Proof.Machine

/-! ### What each command does on each of its branches -/

theorem execEncWrite_of_append {s : State} {e : Encoder} {b : Byte} (hroom : s.enc.accepts s.cap = true)
    (h : s.enc.append s.cap b = .ok e) : execEncWrite b s = .next ({ s with enc := e }.respond true 0x00#8) := by
  simp [execEncWrite, hroom, h]

theorem execEncWrite_of_not_accepts {s : State} (hfull : ¬s.enc.accepts s.cap = true) (b : Byte) :
    execEncWrite b s = .next (s.respond false 0x00#8) := if_neg hfull

theorem execEncEnd_of_closed {s : State} (hclosed : s.enc.isOpen = false) : execEncEnd s = .next (s.respond false 0x00#8) := by
  simp [execEncEnd, hclosed]

theorem execEncRead_of_load {s : State} {v c : Byte} (hdata : s.enc.readable = true)
    (h : loadPostInc s.cap s.enc.buf s.enc.cur = .ok (v, c)) :
    execEncRead s = .next ({ s with enc := { s.enc with cur := c } }.respond true v) := by
  simp [execEncRead, hdata, h]

theorem execEncRead_of_not_readable {s : State} (hnone : ¬s.enc.readable = true) :
    execEncRead s = .next (s.respond false 0x00#8) := if_neg hnone

theorem execEncAvail_of_open {s : State} (hopen : s.enc.isOpen = true) : execEncAvail s = .next (s.respond true 0x00#8) := by
  simp [execEncAvail, hopen]

theorem execEncAvail_of_closed {s : State} (hclosed : s.enc.isOpen = false) :
    execEncAvail s = .next (s.respond true (s.enc.total - s.enc.cur)) := by
  simp [execEncAvail, hclosed]

/-- What `ENC_PKTLEN` answers (R126). -/
def Encoder.packetLength (e : Encoder) : Byte := if e.isOpen = true then toByte (e.total.toNat + 2) else e.total

theorem execEncPktlen_eq (s : State) : execEncPktlen s = .next (s.respond true s.enc.packetLength) := rfl

theorem Encoder.packetLength_of_open {e : Encoder} (hopen : e.isOpen = true) : e.packetLength = e.total + 2#8 :=
  (if_pos hopen).trans (toByte_add_two e.total)

theorem Encoder.packetLength_of_closed {e : Encoder} (hclosed : e.isOpen = false) : e.packetLength = e.total := by
  simp [Encoder.packetLength, hclosed]

/-! ### The commands -/

/-- Settles O24: the payload is readable, so R123's three stores go through, each at its own index. -/
theorem encEndFinalizesOrIsIgnored : Obligations.EncEndFinalizesOrIsIgnored := by
  refine fun s => ⟨rfl, ?_, execEncEnd_of_closed⟩
  rintro p _ hopen hlow hhigh hload rfl
  obtain ⟨hcaplow, hcaphigh⟩ := s.cap_bounds
  have hfinal := Encoder.finalize_of_payload hlow (by omega) hload
  refine ⟨_, execEncEnd_of_finalize hopen hfinal, rfl, rfl, rfl, toNat_toByte_of_lt (by omega), ?_, ?_, ?_, ?_⟩ <;>
    dsimp only [State.respond_enc]
  · rw [Memory.read_write_other _ _ (by omega), Memory.read_write_other _ _ (by omega)]
    exact Memory.read_write_same _ _ _
  · rw [Memory.read_write_other _ _ (by omega), Memory.read_write_same]
  · exact Memory.read_write_same _ _ _
  · intro i hlength hcrc hend
    rw [Memory.read_write_other _ _ (by omega), Memory.read_write_other _ _ (by omega),
      Memory.read_write_other _ _ (by omega)]

/-- The two bytes that an open encoder counts ahead are the two that finalizing adds. -/
theorem Encoder.packetLength_of_finalize {cap : Nat} {e e' : Encoder} (hopen : e.isOpen = true)
    (h : e.finalize cap = .ok e') : e'.packetLength = e.packetLength := by
  obtain ⟨-, -, covered, -, rfl⟩ := (Encoder.finalize_eq_ok cap e e').1 h
  rw [Encoder.packetLength_of_closed rfl, Encoder.packetLength_of_open hopen, toByte_add_two]

/-- No `ENC_END` that completes changes the packet length, ignored or not. -/
theorem Encoder.Command.packetLength_of_encEnd {cap : Nat} {e e' : Encoder} (h : e.Command cap .encEnd e') :
    e'.packetLength = e.packetLength := by
  cases h with
  | keep => rfl
  | finalize hopen h => exact Encoder.packetLength_of_finalize hopen h

/-- Settles O27: `ENC_PKTLEN` answers the packet length, which `ENC_END` keeps. -/
theorem packetLengthIsTheSameAcrossEnd : Obligations.PacketLengthIsTheSameAcrossEnd := by
  intro s t hend
  have hsame := (execEncEnd_effect hend).enc.packetLength_of_encEnd
  exact ⟨_, execEncPktlen_eq s, hsame ▸ execEncPktlen_eq t⟩

/-- Settles O22: the one store of `ENC_RESET` is at index 0. -/
theorem encResetRearmsTheEncoder : Obligations.EncResetRearmsTheEncoder := fun _ =>
  ⟨rfl, _, rfl, rfl, rfl, rfl, rfl, Memory.read_write_same _ _ _, fun _ hi => Memory.read_write_other _ _ hi⟩

/-- Settles O23: an accepted byte is stored at the cursor; the test of R122 rejects every other one. -/
theorem encWriteAppendsOrRejects : Obligations.EncWriteAppendsOrRejects := by
  refine fun s b => ⟨rfl, fun hopen hfits hcur => ?_, fun hfull => ?_⟩
  · have hroom := (Encoder.accepts_eq_true s.cap s.enc).2 ⟨hopen, hfits⟩
    exact ⟨_, execEncWrite_of_append hroom ((Encoder.append_eq_ok _ _ _ b).2 ⟨hcur, rfl⟩), rfl, hopen,
      bump_eq _, toByte_succ _, Memory.read_write_same _ _ _, fun _ hi => Memory.read_write_other _ _ hi⟩
  · exact execEncWrite_of_not_accepts (mt (Encoder.accepts_eq_true s.cap s.enc).1 hfull) b

/-- Settles O26, by whether the encoder is open. -/
theorem encQueriesAnswerTheirCounts : Obligations.EncQueriesAnswerTheirCounts := by
  refine fun s => ⟨rfl, rfl, fun hopen => ⟨execEncAvail_of_open hopen, ?_⟩,
    fun hclosed => ⟨execEncAvail_of_closed hclosed, ?_⟩⟩
  · exact Encoder.packetLength_of_open hopen ▸ execEncPktlen_eq s
  · exact Encoder.packetLength_of_closed hclosed ▸ execEncPktlen_eq s

/-- Settles O28: the byte at the cursor is loaded where R125's test passes; nothing is read where it does not. -/
theorem encReadConsumesOrAnswersNoData : Obligations.EncReadConsumesOrAnswersNoData := by
  refine fun s => ⟨rfl, fun v hclosed hlt hcur hread => ?_, fun hnone => ?_⟩
  · exact execEncRead_of_load ((Encoder.readable_eq_true s.enc).2 ⟨hclosed, hlt⟩)
      ((loadPostInc_eq_ok _ _ _ _ _).2 ⟨hcur, hread, (bump_eq s.enc.cur).symm⟩)
  · exact execEncRead_of_not_readable (mt (Encoder.readable_eq_true s.enc).1 hnone)

end Sys2Proof.Machine
end

section
/-! PROOFS. The decoder's transition function branch by branch (R155), and the rows of R165's table. -/

namespace Sys2Proof.Machine

/-! ### The phases (R152) -/

theorem Decoder.phase_eq_idle (D : Decoder) :
    D.phase = .idle ↔ D.err = .noError ∧ D.isOpen = false ∧ D.total.toNat = 0 := by
  grind [Decoder.phase]

theorem Decoder.phase_eq_collectingLength (D : Decoder) :
    D.phase = .collectingLength ↔ D.err = .noError ∧ D.isOpen = true ∧ D.total.toNat = 1 := by
  grind [Decoder.phase]

theorem Decoder.phase_eq_collectingPayload (D : Decoder) :
    D.phase = .collectingPayload ↔ D.err = .noError ∧ D.isOpen = true ∧ 2 ≤ D.total.toNat := by
  grind [Decoder.phase]

theorem Decoder.phase_eq_closedOk (D : Decoder) :
    D.phase = .closedOk ↔ D.err = .noError ∧ D.isOpen = false ∧ 4 ≤ D.total.toNat := by
  grind [Decoder.phase]

theorem Decoder.phase_eq_closedErr (D : Decoder) :
    D.phase = .closedErr ↔ D.err ≠ .noError ∧ D.isOpen = false ∧ 1 ≤ D.total.toNat := by
  grind [Decoder.phase]

/-! ### One input byte, branch by branch (R155) -/

/-- Document rule 1: a closed record takes nothing but the START of a new frame. -/
theorem Decoder.write_of_closed {D : Decoder} {b : Byte} (hclosed : D.isOpen = false)
    (hb : ¬(D.total.toNat = 0 ∧ b = Config.startByte)) (cap : Nat) : D.write cap b = .ok (false, D) := by
  simp [Decoder.write, hclosed, hb]

theorem Decoder.write_start {D : Decoder} (hidle : D.phase = .idle) (cap : Nat) :
    D.write cap Config.startByte = .ok (true, { D with isOpen := true, total := 1#8 }) := by
  obtain ⟨herr, hclosed, htotal⟩ := D.phase_eq_idle.1 hidle
  simp [Decoder.write, (Decoder.hasErr_eq_false D).2 herr, hclosed, htotal]

theorem Decoder.write_noise {D : Decoder} {b : Byte} (hidle : D.phase = .idle) (hb : b ≠ Config.startByte) (cap : Nat) :
    D.write cap b = .ok (false, D) := by
  obtain ⟨-, hclosed, -⟩ := D.phase_eq_idle.1 hidle
  exact Decoder.write_of_closed hclosed (fun ⟨_, hstart⟩ => hb hstart) cap

theorem Decoder.write_of_closedOk {D : Decoder} (hphase : D.phase = .closedOk) (cap : Nat) (b : Byte) :
    D.write cap b = .ok (false, D) := by
  obtain ⟨-, hclosed, htotal⟩ := D.phase_eq_closedOk.1 hphase
  exact Decoder.write_of_closed hclosed (by omega) cap

/-- Document rule 2: a record after START takes the length byte. -/
theorem Decoder.write_eq_takeLength {D : Decoder} (hphase : D.phase = .collectingLength) (cap : Nat) (b : Byte) :
    D.write cap b = .ok (D.takeLength cap b) := by
  obtain ⟨herr, hopen, htotal⟩ := D.phase_eq_collectingLength.1 hphase
  simp [Decoder.write, (Decoder.hasErr_eq_false D).2 herr, hopen, htotal]

theorem Decoder.takeLength_of_le {cap : Nat} {b : Byte} (hb : b.toNat ≤ cap) (D : Decoder) :
    D.takeLength cap b = (true, { D with explen := b, total := 2#8 }) := if_neg (Nat.not_lt.2 hb)

theorem Decoder.takeLength_of_gt {cap : Nat} {b : Byte} (hb : cap < b.toNat) (D : Decoder) :
    D.takeLength cap b = (false, { D with explen := b, isOpen := false, err := .invalidLength }) := if_pos hb

/-- Document rule 3: before the terminal position the byte is stored at the write index. -/
theorem Decoder.write_body {cap : Nat} {D : Decoder} (hphase : D.phase = .collectingPayload)
    (hbefore : D.total.toNat + 1 < D.explen.toNat) (hwidx : D.widx.toNat < cap) (b : Byte) :
    D.write cap b =
      .ok (true, { D with buf := D.buf.write D.widx.toNat b, widx := D.widx + 1#8, total := D.total + 1#8 }) := by
  obtain ⟨herr, hopen, htotal⟩ := D.phase_eq_collectingPayload.1 hphase
  have hstore := (storePostInc_eq_ok cap D.buf _ D.widx b _).2 ⟨hwidx, rfl, rfl⟩
  simp [Decoder.write, (Decoder.hasErr_eq_false D).2 herr, hopen, show D.total.toNat ≠ 1 by omega,
    D.beforeTerminal_eq_true.2 hbefore, Decoder.takePayload, hstore, bump_eq, toByte_succ]

/-- Document rule 4: the byte at the terminal position closes the record. -/
theorem Decoder.write_eq_takeTerminal {D : Decoder} (hphase : D.phase = .collectingPayload)
    (hlast : D.explen.toNat ≤ D.total.toNat + 1) (cap : Nat) (b : Byte) : D.write cap b = D.takeTerminal cap b := by
  obtain ⟨herr, hopen, htotal⟩ := D.phase_eq_collectingPayload.1 hphase
  simp [Decoder.write, (Decoder.hasErr_eq_false D).2 herr, hopen, show D.total.toNat ≠ 1 by omega,
    mt D.beforeTerminal_eq_true.1 (Nat.not_lt.2 hlast)]

/-- A terminal byte that is not END, or comes too early. -/
theorem Decoder.write_malformed {D : Decoder} {b : Byte} (hphase : D.phase = .collectingPayload)
    (hlast : D.explen.toNat ≤ D.total.toNat + 1) (hbad : b ≠ Config.endByte ∨ D.total.toNat + 1 < 4) (cap : Nat) :
    D.write cap b = .ok (false, { D with isOpen := false, total := D.total + 1#8, err := .invalidLength }) := by
  rw [Decoder.write_eq_takeTerminal hphase hlast, Decoder.takeTerminal]
  split_ifs with hb hfour
  · simp [Decoder.recordError, toByte_succ]
  · simp [Decoder.recordError, toByte_succ]
  · exact absurd hbad (by tauto)

/-- The record at the checksum test of document rule 4: `total` counts the terminal byte, `paylen` is not set yet. -/
def Decoder.atChecksum (D : Decoder) : Decoder := { D with isOpen := false, total := D.total + 1#8 }

theorem Decoder.takeTerminal_end {D : Decoder} (hfour : 4 ≤ D.total.toNat + 1) (cap : Nat) :
    D.takeTerminal cap Config.endByte = D.atChecksum.verify cap := by
  simp [Decoder.takeTerminal, Decoder.atChecksum, Nat.not_lt.2 hfour, toByte_succ]

theorem Decoder.atChecksum_total_toNat {D : Decoder} (htotal : D.total.toNat < 255) :
    D.atChecksum.total.toNat = D.total.toNat + 1 := by
  simp [Decoder.atChecksum, BitVec.toNat_add]; omega

/-- Storing the payload length at the checksum test: the frame's four other bytes are not payload. -/
theorem toByte_paylen {total : Byte} (hthree : 3 ≤ total.toNat) : toByte (total.toNat - 3) = total - 3#8 := by
  apply BitVec.eq_of_toNat_eq
  simp [toByte, BitVec.toNat_sub]
  omega

/-- END in time: the checksum test decides, and sets `paylen` either way. -/
theorem Decoder.write_end {cap : Nat} {D : Decoder} {payload : List Byte} {received : Byte}
    (hphase : D.phase = .collectingPayload) (hlast : D.explen.toNat ≤ D.total.toNat + 1) (hfour : 4 ≤ D.total.toNat + 1)
    (htotal : D.total.toNat < 255) (hload : loadRange cap D.buf 0 (D.total.toNat - 3) = .ok payload)
    (hreceived : load cap D.buf (D.total.toNat - 3) = .ok received) :
    D.write cap Config.endByte = .ok (if crc8Seq 0x00#8 (D.explen :: payload) = received
      then (true, { D with isOpen := false, total := D.total + 1#8, paylen := D.total - 3#8, ridx := 0#8 })
      else (false, { D with isOpen := false, total := D.total + 1#8, paylen := D.total - 3#8, err := .invalidChecksum })) := by
  have hcount : D.atChecksum.total.toNat - 4 = D.total.toNat - 3 := by rw [Decoder.atChecksum_total_toNat htotal]; omega
  rw [Decoder.write_eq_takeTerminal hphase hlast, Decoder.takeTerminal_end hfour, Decoder.verify_eq_ok, hcount,
    toByte_paylen (by omega)]
  split_ifs with hcrc
  · exact ⟨payload, received, hload, hreceived, .inl ⟨hcrc, rfl, rfl⟩⟩
  · exact ⟨payload, received, hload, hreceived, .inr ⟨hcrc, rfl, rfl⟩⟩

theorem capOf_bounds (m : Config.MaxPayload) : 4 ≤ Config.capOf m ∧ Config.capOf m ≤ 255 := (State.resetWith m).cap_bounds

/-- Settles O31: each row of R165 is one branch of the transition function. -/
theorem decoderFollowsTheTransitionTable : Obligations.DecoderFollowsTheTransitionTable := by
  rintro m D b cap rfl
  obtain ⟨-, hcap⟩ := capOf_bounds m
  refine ⟨fun hidle hb => hb ▸ Decoder.write_start hidle _, fun hidle hb => Decoder.write_noise hidle hb _,
    fun hphase hb => ?_, fun hphase hb => ?_, fun hphase hbefore hwidx => ?_,
    fun hphase hlast => ⟨fun hb => ?_, fun hb hshort => ?_, fun hb hfour htotal payload received hload hreceived => ?_⟩, ?_⟩
  · rw [Decoder.write_eq_takeLength hphase, Decoder.takeLength_of_le hb]
  · rw [Decoder.write_eq_takeLength hphase, Decoder.takeLength_of_gt hb]
  · exact ⟨_, Decoder.write_body hphase (by omega) hwidx b, rfl, Memory.read_write_same _ _ _,
      fun i hi => Memory.read_write_other _ _ hi⟩
  · exact Decoder.write_malformed hphase (by omega) (.inl hb) _
  · exact Decoder.write_malformed hphase (by omega) (.inr hshort) _
  · subst hb
    rw [Decoder.write_end hphase (by omega) hfour (by omega) hload hreceived]
    exact ⟨fun hne => by rw [if_neg hne], fun heq => by rw [if_pos heq]⟩
  · rintro (hok | hfailed)
    · exact Decoder.write_of_closedOk hok _ b
    · obtain ⟨herr, -⟩ := D.phase_eq_closedErr.1 hfailed
      exact Decoder.write_of_err herr _ b

end Sys2Proof.Machine
end

section
/-! PROOFS. The DEC unit's eight commands (R154, R156 to R162). -/

namespace Sys2Proof.Machine

/-- Settles O30: `DEC_RESET` clears the record. -/
theorem decResetClearsTheRecord : Obligations.DecResetClearsTheRecord := fun _ => ⟨rfl, rfl⟩

/-! ### `DEC_WRITE` -/

theorem execDecWrite_of_write {s : State} {D : Decoder} {b : Byte} {accepted : Bool}
    (h : s.dec.write s.cap b = .ok (accepted, D)) :
    execDecWrite b s = .next ({ s with dec := D }.respond accepted 0x00#8) := by
  simp [execDecWrite, h]

/-- A byte is stored at the write index or nowhere (R155, document rule 3). -/
theorem Decoder.buf_of_write {cap : Nat} {D D' : Decoder} {b : Byte} {accepted : Bool}
    (h : D.write cap b = .ok (accepted, D')) : D'.buf = D.buf ∨ D'.buf = D.buf.write D.widx.toNat b := by
  obtain ⟨-, -, rfl⟩ | ⟨-, -, -, -, -, rfl⟩ | ⟨-, -, -, -, rfl⟩ | ⟨-, -, -, -, -, rfl⟩ | ⟨-, -, -, -, -, rfl⟩ |
    ⟨-, -, -, -, -, -, rfl⟩ | ⟨-, -, -, -, -, -, rfl⟩ | ⟨-, -, -, -, -, -, hverify⟩ := Decoder.write_cases h
  case inr.inr.inr.inr.inr.inl => exact .inr rfl
  case inr.inr.inr.inr.inr.inr.inr =>
    obtain ⟨_, _, -, -, ⟨-, -, rfl⟩ | ⟨-, -, rfl⟩⟩ := (Decoder.verify_eq_ok _ _ _ _).1 hverify
    · exact .inl rfl
    · exact .inl rfl
  all_goals exact .inl rfl

theorem Decoder.read_buf_of_write {cap : Nat} {D D' : Decoder} {b : Byte} {accepted : Bool} {i : Nat}
    (h : D.write cap b = .ok (accepted, D')) (hi : i ≠ D.widx.toNat) : D'.buf.read i = D.buf.read i := by
  obtain hbuf | hbuf := Decoder.buf_of_write h
  · rw [hbuf]
  · rw [hbuf, Memory.read_write_other _ _ hi]

/-- Settles O32: the invariant makes the transition complete, and the command answers what it says. -/
theorem decWriteRunsTheTransition : Obligations.DecWriteRunsTheTransition := by
  intro s b hinv
  obtain ⟨hlow, hhigh⟩ := s.cap_bounds
  obtain ⟨accepted, D, hwrite⟩ := hinv.write_exists hlow hhigh b
  exact ⟨rfl, accepted, D, hwrite, execDecWrite_of_write hwrite, fun _ hi => Decoder.read_buf_of_write hwrite hi⟩

/-! ### The queries -/

theorem execDecAvail_of_doneOk {s : State} (hok : s.dec.doneOk = true) :
    execDecAvail s = .next (s.respond true (s.dec.paylen - s.dec.ridx)) := by
  simp [execDecAvail, hok]

theorem execDecAvail_of_not_doneOk {s : State} (hnot : ¬s.dec.doneOk = true) :
    execDecAvail s = .next (s.respond true 0x00#8) := by
  simp [execDecAvail, hnot]

theorem boolByte_hasErr (D : Decoder) : boolByte D.hasErr = if D.err = .noError then 0x00#8 else 0x01#8 := by
  by_cases herr : D.err = .noError <;> simp [boolByte, Decoder.hasErr, herr]

theorem execDecLasterr_of_err {s : State} {e : DecErr} (herr : s.dec.err = e) :
    execDecLasterr s = .next (s.respond true e.code) := herr ▸ rfl

/-- Settles O33: only `DEC_AVAIL` has a condition, R153's. -/
theorem decQueriesAnswerTheRecord : Obligations.DecQueriesAnswerTheRecord := by
  refine fun s => ⟨⟨rfl, rfl, rfl, rfl, rfl⟩, fun hok => ?_, fun hnot => ?_, rfl, ?_, execDecLasterr_of_err,
    execDecLasterr_of_err, execDecLasterr_of_err, rfl⟩
  · exact execDecAvail_of_doneOk ((Decoder.doneOk_eq_true s.dec).2 hok)
  · exact execDecAvail_of_not_doneOk (mt (Decoder.doneOk_eq_true s.dec).1 hnot)
  · rw [← boolByte_hasErr]
    rfl

/-! ### `DEC_READ` -/

theorem execDecRead_of_load {s : State} {v c : Byte} (hdata : s.dec.readable = true)
    (h : loadPostInc s.cap s.dec.buf s.dec.ridx = .ok (v, c)) :
    execDecRead s = .next ({ s with dec := { s.dec with ridx := c } }.respond true v) := by
  simp [execDecRead, hdata, h]

theorem execDecRead_of_not_readable {s : State} (hnone : ¬s.dec.readable = true) :
    execDecRead s = .next (s.respond false 0x00#8) := if_neg hnone

/-- R158's test, flag by flag. -/
theorem Decoder.readable_iff_fields (D : Decoder) :
    D.readable = true ↔ D.isOpen = false ∧ D.err = .noError ∧ 0 < D.total.toNat ∧ D.ridx.toNat < D.paylen.toNat := by
  rw [Decoder.readable_eq_true, Decoder.doneOk_eq_true, and_assoc, and_assoc]

/-- Settles O34: the byte at the cursor is loaded where R158's test passes; nothing is read where it does not. -/
theorem decReadConsumesOrAnswersNoData : Obligations.DecReadConsumesOrAnswersNoData := by
  refine fun s => ⟨rfl, fun v hclosed herr htotal hlt hridx hread => ?_, fun hnone => ?_⟩
  · exact execDecRead_of_load (s.dec.readable_iff_fields.2 ⟨hclosed, herr, htotal, hlt⟩)
      ((loadPostInc_eq_ok _ _ _ _ _).2 ⟨hridx, hread, (bump_eq s.dec.ridx).symm⟩)
  · exact execDecRead_of_not_readable (mt s.dec.readable_iff_fields.1 hnone)

end Sys2Proof.Machine
end

section
/-! PROOFS. Feeding a record byte sequences: chunks, noise, and bytes after a verified frame (R164, R166). -/

namespace Sys2Proof.Machine

/-- Feeding two sequences one after the other; a fault in the first ends both. -/
theorem Decoder.feed_append (cap : Nat) (D : Decoder) (xs ys : List Byte) :
    D.feed cap (xs ++ ys) = D.feed cap xs >>= fun D' => D'.feed cap ys := by
  induction xs generalizing D with
  | nil => rfl
  | cons b xs ih =>
    simp only [List.cons_append, Decoder.feed]
    cases D.write cap b with
    | error f => rfl
    | ok r => exact ih r.2

/-- Settles O38: a chunk is the first part of the concatenation, and a fault in it ends the rest. -/
theorem chunkingIsIrrelevant : Obligations.ChunkingIsIrrelevant := by
  intro cap D chunks
  induction chunks generalizing D with
  | nil => rfl
  | cons c chunks ih =>
    rw [List.foldl_cons, List.flatten_cons, Decoder.feed_append]
    dsimp only
    cases D.feed cap c with
    | error f => exact List.foldl_fixed' (fun _ => rfl) chunks
    | ok D' => exact ih D'

/-- A record that every byte of a sequence leaves as it is. -/
theorem Decoder.feed_of_write_self {cap : Nat} {D : Decoder} {xs : List Byte}
    (h : ∀ b ∈ xs, D.write cap b = .ok (false, D)) : D.feed cap xs = .ok D := by
  induction xs with
  | nil => rfl
  | cons b xs ih =>
    rw [List.forall_mem_cons] at h
    simp only [Decoder.feed, h.1, ih h.2]

theorem Decoder.feed_noise {D : Decoder} {xs : List Byte} (hidle : D.phase = .idle) (hnoise : ∀ b ∈ xs, b ≠ Config.startByte)
    (cap : Nat) : D.feed cap xs = .ok D :=
  Decoder.feed_of_write_self fun b hb => Decoder.write_noise hidle (hnoise b hb) cap

theorem Decoder.feed_of_closedOk {D : Decoder} (hphase : D.phase = .closedOk) (cap : Nat) (xs : List Byte) :
    D.feed cap xs = .ok D :=
  Decoder.feed_of_write_self fun b _ => Decoder.write_of_closedOk hphase cap b

/-- Settles O37: no byte of either kind changes the record. -/
theorem noiseAndTrailingBytesAreIgnored : Obligations.NoiseAndTrailingBytesAreIgnored :=
  fun cap _ xs => ⟨fun hidle hnoise => Decoder.feed_noise hidle hnoise cap, fun hok => Decoder.feed_of_closedOk hok cap xs⟩

end Sys2Proof.Machine
end

section
/-! PROOFS. What a decoder accepts: noise, one frame, any tail (R163), and so the round trip (R164). Acceptance is followed byte by byte: each input byte passes the question on to the next record, until the terminal byte answers it. -/

namespace Sys2Proof.Machine

/-! ### Acceptance -/

/-- Fed `xs`, the record ends verified with payload `p` (R163). -/
def Decoder.Accepts (cap : Nat) (D : Decoder) (xs p : List Byte) : Prop :=
  ∃ D', D.feed cap xs = .ok D' ∧ D'.phase = .closedOk ∧ loadRange cap D'.buf 0 D'.paylen.toNat = .ok p

theorem Decoder.accepts_iff_of_feed {cap : Nat} {D D' : Decoder} {xs : List Byte} (h : D.feed cap xs = .ok D')
    (p : List Byte) :
    D.Accepts cap xs p ↔ D'.phase = .closedOk ∧ loadRange cap D'.buf 0 D'.paylen.toNat = .ok p := by
  simp [Decoder.Accepts, h]

theorem Decoder.accepts_append_of_feed {cap : Nat} {D D' : Decoder} {xs : List Byte} (h : D.feed cap xs = .ok D')
    (ys p : List Byte) : D.Accepts cap (xs ++ ys) p ↔ D'.Accepts cap ys p := by
  rw [Decoder.Accepts, Decoder.feed_append, h]
  rfl

theorem Decoder.accepts_cons_of_write {cap : Nat} {D D' : Decoder} {b : Byte} {accepted : Bool}
    (h : D.write cap b = .ok (accepted, D')) (xs p : List Byte) : D.Accepts cap (b :: xs) p ↔ D'.Accepts cap xs p :=
  Decoder.accepts_append_of_feed ((D.feed_cons_eq_ok cap D' b []).2 ⟨accepted, D', h, rfl⟩) xs p

/-- Nothing more to read: only a verified record will do. -/
theorem Decoder.not_accepts_nil {cap : Nat} {D : Decoder} (h : D.phase ≠ .closedOk) (p : List Byte) :
    ¬D.Accepts cap [] p := fun haccepts => by
  obtain ⟨hok, -⟩ := (Decoder.accepts_iff_of_feed rfl p).1 haccepts
  exact h hok

/-- A record in error stays there. -/
theorem Decoder.not_accepts_of_err {D : Decoder} (herr : D.err ≠ .noError) (cap : Nat) (xs p : List Byte) :
    ¬D.Accepts cap xs p := by
  rw [Decoder.accepts_iff_of_feed (Decoder.feed_of_err herr cap xs), D.phase_eq_closedOk]
  exact fun ⟨⟨hok, _⟩, _⟩ => herr hok

/-! ### After the length byte -/

/-- What has to follow the length byte `L` for the payload `p` (R92, R163). -/
def RestOfFrame (L : Byte) (rest p : List Byte) : Prop :=
  p.length + 4 = L.toNat ∧ ∃ tail, rest = p ++ crc8Seq 0x00#8 (L :: p) :: Config.endByte :: tail

/-- Where the input up to the terminal position is given, one payload, one checksum and one terminal byte remain. -/
theorem restOfFrame_iff_at_terminal {L : Byte} {q : List Byte} (hlen : q.length + 4 = L.toNat) (c b : Byte)
    (rest p : List Byte) :
    RestOfFrame L (q ++ c :: b :: rest) p ↔ p = q ∧ c = crc8Seq 0x00#8 (L :: q) ∧ b = Config.endByte := by
  constructor
  · rintro ⟨hp, tail, heq⟩
    obtain ⟨rfl, heq⟩ := List.append_inj heq (by omega)
    simp only [List.cons.injEq] at heq
    obtain ⟨hc, hb, -⟩ := heq
    exact ⟨rfl, hc, hb⟩
  · rintro ⟨rfl, rfl, rfl⟩
    exact ⟨hlen, rest, rfl⟩

/-- The bytes a range load finds, and one more. -/
theorem loadRange_snoc (size : Nat) (m : Memory) (lo : Nat) (bs : List Byte) (b : Byte) :
    loadRange size m lo (bs ++ [b]).length = .ok (bs ++ [b]) ↔
      loadRange size m lo bs.length = .ok bs ∧ load size m (lo + bs.length) = .ok b := by
  simp only [loadRange_eq_ok, load_eq_ok, List.length_append, List.length_singleton, true_and, Nat.forall_lt_succ_right,
    List.getElem?_concat_length]
  refine and_congr_left' (forall₂_congr fun k hk => ?_)
  rw [List.getElem?_append_left hk]

/-- The record has taken a length byte `L` and after it the bytes `q`, no more than lie before the terminal position. -/
structure Decoder.Collecting (cap : Nat) (L : Byte) (q : List Byte) (D : Decoder) : Prop where
  phase : D.phase = .collectingPayload
  explen : D.explen = L
  fits : L.toNat ≤ cap
  total : D.total.toNat = q.length + 2
  widx : D.widx.toNat = q.length
  stored : loadRange cap D.buf 0 q.length = .ok q
  room : q = [] ∨ q.length + 3 ≤ L.toNat

/-- A byte before the terminal position joins the bytes taken. -/
theorem Decoder.Collecting.write_body {cap : Nat} {L : Byte} {q : List Byte} {D : Decoder} (h : D.Collecting cap L q)
    (hbefore : q.length + 3 < L.toNat) (b : Byte) :
    ∃ D', D.write cap b = .ok (true, D') ∧ D'.Collecting cap L (q ++ [b]) := by
  obtain ⟨hphase, rfl, hfits, htotal, hwidx, hstored, -⟩ := h
  obtain ⟨herr, hopen, -⟩ := D.phase_eq_collectingPayload.1 hphase
  have hL := D.explen.isLt
  have htotal' : (D.total + 1#8).toNat = (q ++ [b]).length + 2 := by simp [BitVec.toNat_add]; omega
  refine ⟨_, Decoder.write_body hphase (by omega) (by omega) b, (Decoder.phase_eq_collectingPayload _).2 ⟨herr, hopen, ?_⟩,
    rfl, hfits, htotal', ?_, ?_, .inr ?_⟩
  · dsimp only; omega
  · simp [BitVec.toNat_add]; omega
  · rw [loadRange_snoc, hwidx]
    refine ⟨?_, load_of_read (by omega) (by rw [Nat.zero_add]; exact Memory.read_write_same _ _ _)⟩
    rw [← hstored]
    exact loadRange_congr _ _ _ _ _ fun k hk => Memory.read_write_other _ _ (by omega)
  · simp; omega

/-- The terminal byte decides: END after the right checksum byte gives payload `q`, whatever comes later; anything else fails. -/
theorem Decoder.Collecting.accepts_terminal {cap : Nat} {L c : Byte} {q : List Byte} {D : Decoder}
    (h : D.Collecting cap L (q ++ [c])) (hlen : q.length + 4 = L.toNat) (b : Byte) (rest p : List Byte) :
    D.Accepts cap (b :: rest) p ↔ p = q ∧ c = crc8Seq 0x00#8 (L :: q) ∧ b = Config.endByte := by
  obtain ⟨hphase, rfl, hfits, htotal, -, hstored, -⟩ := h
  obtain ⟨hpayload, hreceived⟩ := (loadRange_snoc _ _ _ _ _).1 hstored
  rw [List.length_append, List.length_singleton] at htotal
  have hcount : D.total.toNat - 3 = q.length := by omega
  rw [Nat.zero_add, ← hcount] at hreceived
  have hload : loadRange cap D.buf 0 (D.total.toNat - 3) = .ok q := hcount ▸ hpayload
  by_cases hb : b = Config.endByte
  case neg =>
    rw [Decoder.accepts_cons_of_write (Decoder.write_malformed hphase (by omega) (.inl hb) cap)]
    exact iff_of_false (Decoder.not_accepts_of_err (by simp) _ _ _) fun ⟨_, _, hend⟩ => hb hend
  case pos =>
    subst hb
    have hwrite := Decoder.write_end hphase (by omega) (by omega) (by omega) hload hreceived
    by_cases hcrc : crc8Seq 0x00#8 (D.explen :: q) = c
    case neg =>
      rw [if_neg hcrc] at hwrite
      rw [Decoder.accepts_cons_of_write hwrite]
      exact iff_of_false (Decoder.not_accepts_of_err (by simp) _ _ _) fun ⟨_, hc, _⟩ => hcrc hc.symm
    case pos =>
      rw [if_pos hcrc] at hwrite
      obtain ⟨herr, -, -⟩ := D.phase_eq_collectingPayload.1 hphase
      have hpaylen : (D.total - 3#8).toNat = q.length := by simp [BitVec.toNat_sub]; omega
      have hclosed := (Decoder.phase_eq_closedOk
        { D with isOpen := false, total := D.total + 1#8, paylen := D.total - 3#8, ridx := 0#8 }).2
        ⟨herr, rfl, by simp [BitVec.toNat_add]; omega⟩
      rw [Decoder.accepts_cons_of_write hwrite, Decoder.accepts_iff_of_feed (Decoder.feed_of_closedOk hclosed cap rest)]
      simp [hclosed, hpaylen, hpayload, hcrc, eq_comm]

/-- From the length byte on: acceptance is passed on up to the terminal position and decided there. -/
theorem Decoder.Collecting.accepts_iff {cap : Nat} {L : Byte} {q : List Byte} {D : Decoder}
    (h : D.Collecting cap L q) (rest p : List Byte) : D.Accepts cap rest p ↔ RestOfFrame L (q ++ rest) p := by
  induction rest generalizing q D with
  | nil =>
    refine iff_of_false (Decoder.not_accepts_nil (by simp [h.phase]) p) fun ⟨hlen, tail, heq⟩ => ?_
    obtain hnil | hroom := h.room
    · simp [hnil] at heq
    · have hq := congrArg List.length heq
      simp only [List.append_nil, List.length_append, List.length_cons] at hq
      omega
  | cons b rest ih =>
    by_cases hbefore : q.length + 3 < L.toNat
    case pos =>
      obtain ⟨D', hwrite, h'⟩ := h.write_body hbefore b
      rw [Decoder.accepts_cons_of_write hwrite, ih h', List.append_assoc, List.singleton_append]
    case neg =>
      obtain rfl | ⟨q, c, rfl⟩ := q.eq_nil_or_concat'
      · -- a length below 4
        simp only [List.length_nil, Nat.zero_add, Nat.not_lt] at hbefore
        have htotal : D.total.toNat = 2 := h.total
        have hlast : D.explen.toNat ≤ D.total.toNat + 1 := by rw [h.explen, htotal]; exact hbefore
        rw [Decoder.accepts_cons_of_write (Decoder.write_malformed h.phase hlast (.inr (by omega)) cap)]
        exact iff_of_false (Decoder.not_accepts_of_err (by simp) _ _ _) fun ⟨hlen, _⟩ => by omega
      · have hlen : q.length + 4 = L.toNat := by
          have hroom := h.room.resolve_left (by simp)
          rw [List.length_append, List.length_singleton] at hroom hbefore
          omega
        rw [h.accepts_terminal hlen, ← restOfFrame_iff_at_terminal hlen c b rest p]
        simp

/-! ### A whole input -/

/-- The record after START. -/
theorem Decoder.phase_after_start {D : Decoder} (hidle : D.phase = .idle) :
    ({ D with isOpen := true, total := 1#8 } : Decoder).phase = .collectingLength := by
  obtain ⟨herr, -, -⟩ := D.phase_eq_idle.1 hidle
  exact (Decoder.phase_eq_collectingLength _).2 ⟨herr, rfl, rfl⟩

/-- START and the length byte. -/
theorem Decoder.accepts_header {cap : Nat} {D : Decoder} (hidle : D.phase = .idle)
    (hwidx : D.widx = 0#8) (L : Byte) (rest p : List Byte) :
    D.Accepts cap (Config.startByte :: L :: rest) p ↔ L.toNat ≤ cap ∧ RestOfFrame L rest p := by
  obtain ⟨herr, -, -⟩ := D.phase_eq_idle.1 hidle
  have hlength := Decoder.write_eq_takeLength (Decoder.phase_after_start hidle) cap L
  rw [Decoder.accepts_cons_of_write (Decoder.write_start hidle cap)]
  by_cases hL : L.toNat ≤ cap
  case neg =>
    rw [Decoder.takeLength_of_gt (Nat.lt_of_not_le hL)] at hlength
    rw [Decoder.accepts_cons_of_write hlength]
    exact iff_of_false (Decoder.not_accepts_of_err (by simp) _ _ _) fun ⟨hfits, _⟩ => hL hfits
  case pos =>
    rw [Decoder.takeLength_of_le hL] at hlength
    have hcollecting : Decoder.Collecting cap L [] { D with isOpen := true, explen := L, total := 2#8 } :=
      { phase := (Decoder.phase_eq_collectingPayload _).2 ⟨herr, rfl, le_refl 2⟩
        explen := rfl, fits := hL, total := rfl, widx := by simp [hwidx], stored := rfl, room := .inl rfl }
    rw [Decoder.accepts_cons_of_write hlength, hcollecting.accepts_iff, List.nil_append, and_iff_right hL]

/-- The first START decides: a list without one is noise, and what comes before it is (R163). -/
theorem Decoder.accepts_iff_of_idle {cap : Nat} {D : Decoder} (hidle : D.phase = .idle)
    (hwidx : D.widx = 0#8) (xs p : List Byte) :
    D.Accepts cap xs p ↔
      ∃ noise L rest, xs = noise ++ Config.startByte :: L :: rest ∧ (∀ b ∈ noise, b ≠ Config.startByte) ∧
        L.toNat ≤ cap ∧ RestOfFrame L rest p := by
  constructor
  · intro h
    by_cases hstart : Config.startByte ∈ xs
    case neg =>
      have hfeed := Decoder.feed_noise hidle (List.forall_mem_ne'.2 hstart) cap
      simp [Decoder.accepts_iff_of_feed hfeed, hidle] at h
    case pos =>
      obtain ⟨noise, ys, rfl, hnoise⟩ := List.eq_append_cons_of_mem hstart
      rw [← List.forall_mem_ne'] at hnoise
      rw [Decoder.accepts_append_of_feed (Decoder.feed_noise hidle hnoise cap)] at h
      cases ys with
      | nil =>
        rw [Decoder.accepts_cons_of_write (Decoder.write_start hidle cap)] at h
        exact absurd h (Decoder.not_accepts_nil (by simp [Decoder.phase_after_start hidle]) p)
      | cons L rest => exact ⟨noise, L, rest, rfl, hnoise, (Decoder.accepts_header hidle hwidx L rest p).1 h⟩
  · rintro ⟨noise, L, rest, rfl, hnoise, hframe⟩
    rw [Decoder.accepts_append_of_feed (Decoder.feed_noise hidle hnoise cap)]
    exact (Decoder.accepts_header hidle hwidx L rest p).2 hframe

/-- Settles O39: R163's frame is START, the length byte and the rest of the frame. -/
theorem decoderAcceptsExactlyFrames : Obligations.DecoderAcceptsExactlyFrames := by
  rintro m D xs p cap rfl
  refine (Decoder.accepts_iff_of_idle (D.clear.phase_eq_idle.2 ⟨rfl, rfl, rfl⟩) rfl xs p).trans ?_
  constructor
  · rintro ⟨noise, L, _, rfl, hnoise, hfits, hlen, tail, rfl⟩
    exact ⟨noise, tail, L, _, by simp, hnoise, by omega, hfits, by omega, rfl⟩
  · rintro ⟨noise, tail, L, _, rfl, hnoise, hlow, hfits, hlen, rfl⟩
    exact ⟨noise, L, _, by simp, hnoise, hfits, by omega, tail, rfl⟩

/-- Settles O40: the frame of `p` is an input of R163 with no noise and no tail. -/
theorem encodeThenDecodeGivesThePayload : Obligations.EncodeThenDecodeGivesThePayload := by
  rintro m D p cap rfl hfits
  obtain ⟨hlow, hhigh⟩ := capOf_bounds m
  have hL : (toByte (p.length + 4)).toNat = p.length + 4 := toNat_toByte_of_lt (by omega)
  obtain ⟨D', hfeed, hok, hload⟩ := (decoderAcceptsExactlyFrames m D (frameOf p) p _ rfl).2
    ⟨[], [], toByte (p.length + 4), _, by simp [frameOf], by simp, by omega, by omega, by omega, rfl⟩
  obtain ⟨herr, -, -⟩ := D'.phase_eq_closedOk.1 hok
  have hpaylen := length_of_loadRange hload
  exact ⟨D', hfeed, hok, herr, hpaylen.symm, hpaylen ▸ hload⟩

end Sys2Proof.Machine
end

section
/-! PROOFS. The REQ unit's commands (R191 to R196, R204 to R206). -/

namespace Sys2Proof.Machine

/-- Settles O42: `REQ_START` leaves the working registers as R196 lists them. -/
theorem reqStartBeginsARequest : Obligations.ReqStartBeginsARequest := fun _ => ⟨rfl, rfl⟩

/-- Settles O41: each half of the delay is one field of the joined pair of bytes that is written. -/
theorem reqSettersWriteTheirRegister : Obligations.ReqSettersWriteTheirRegister := fun _ _ =>
  ⟨⟨rfl, rfl, rfl, rfl, rfl⟩, rfl, rfl, rfl, ⟨_, rfl, extract_low _ _, extract_high _ _⟩,
    ⟨_, rfl, extract_high _ _, extract_low _ _⟩⟩

theorem execReqRead_of_load {s : State} {v c : Byte} (hdata : s.req.readable = true)
    (h : loadPostInc (s.cap - 4) s.req.rxbuf s.req.rxcur = .ok (v, c)) :
    execReqRead s = .next ({ s with req := { s.req with rxcur := c } }.respond true v) := by
  simp [execReqRead, hdata, h]

theorem execReqRead_of_not_readable {s : State} (hnone : ¬s.req.readable = true) :
    execReqRead s = .next (s.respond false 0x00#8) := if_neg hnone

/-- Settles O48: the byte at the cursor is loaded where R206's test passes; nothing is read where it does not. -/
theorem reqReadOutCommandsAnswer : Obligations.ReqReadOutCommandsAnswer := by
  refine fun s => ⟨⟨rfl, rfl, rfl⟩, rfl, ⟨rfl, rfl, rfl, rfl, rfl⟩, rfl, fun v hlt hcur hread => ?_, fun hnone => ?_⟩
  · exact execReqRead_of_load (s.req.readable_eq_true.2 hlt)
      ((loadPostInc_eq_ok _ _ _ _ _).2 ⟨hcur, hread, (bump_eq s.req.rxcur).symm⟩)
  · exact execReqRead_of_not_readable (mt s.req.readable_eq_true.1 (Nat.not_lt.2 hnone))

end Sys2Proof.Machine
end

section
/-! PROOFS. The micro-steps of a running request, branch by branch (R197 to R202), and what none of them touches (R207 to R209). -/

namespace Sys2Proof.Machine

theorem State.Running.state_eq {s : State} {q : ReqState} (hrun : s.Running q) : s.req.state = q := hrun.2.1

/-- While a request runs, the FSM takes the step (R209). -/
theorem step_of_running {s : State} {q : ReqState} (hrun : s.Running q) : step s = requesterStep s := by
  obtain ⟨hpin, rfl, hq⟩ := hrun
  simp [step, hpin, hq]

/-! ### `RQ_CHECK` (R197) -/

theorem step_check {s : State} (hrun : s.Running .check) : step s = .next (microCheck s) := by
  rw [step_of_running hrun]
  simp [requesterStep, hrun.state_eq]

/-- Settles O43, by whether an attempt is left, and then by the flag that R197 or R202 reads. -/
theorem checkStepChoosesOrFinishes : Obligations.CheckStepChoosesOrFinishes := by
  refine fun s hrun => ⟨fun hleft => ?_, fun hnone => ?_⟩ <;> rw [step_check hrun]
  · have htarget : microCheck s = _ := if_pos hleft
    exact ⟨fun htrig => by simp [htarget, htrig], fun htrig => by simp [htarget, htrig]⟩
  · have hfinish : microCheck s = s.finishExhausted := if_neg (Nat.not_lt.2 hnone)
    rw [hfinish, State.finishExhausted]
    exact ⟨fun herr => by rw [if_pos herr]; rfl, fun herr => by rw [if_neg (by simp [herr])]; rfl⟩

/-! ### `RQ_TRIG` (R198) -/

/-- The state after event `e` of a trigger: the count advances, and with the last event the FSM moves on (R198, log 15). -/
def State.afterTrigEvent (s : State) (e : Event) : State :=
  { s with
    req := if s.req.trigSent.val < 5 then { s.req with trigSent := s.req.trigSent + 1 }
      else { s.req with trigSent := 0, needtrig := false, state := .wait }
    trace := s.trace ++ [e] }

theorem trigSent_lt (r : Requester) : r.trigSent.val < (triggerEvents r.addr).length := r.trigSent.isLt

theorem step_trig {s : State} (hrun : s.Running .trig) :
    step s = .next (s.afterTrigEvent ((triggerEvents s.req.addr)[s.req.trigSent.val]'(trigSent_lt s.req))) := by
  have hmicro : requesterStep s = .next (microTrig s) := by simp [requesterStep, hrun.state_eq]
  rw [step_of_running hrun, hmicro, microTrig_eq, List.take_one_drop_eq_of_lt_length (trigSent_lt s.req)]
  rfl

/-- Settles O58: one step sends the event that the count names; the reset input takes the step from any count. -/
theorem resetMayFallInsideATrigger : Obligations.ResetMayFallInsideATrigger := by
  refine fun s hrun => ⟨⟨_, List.getElem?_eq_getElem (trigSent_lt s.req), fun hmore => ?_, fun hlast => ?_⟩, ?_⟩
  · rw [step_trig hrun, State.afterTrigEvent, if_pos hmore]
  · rw [step_trig hrun, State.afterTrigEvent, if_neg (by omega)]
  · obtain ⟨t, hstep, hreset, hready, hresp, htrace, -⟩ := hardwareResetGivesTheResetTable { s with resetPin := true } rfl
    exact ⟨t, hstep, hreset, hready, hresp, htrace⟩

/-! ### Runs -/

/-- Some number of steps leads from `s` to `t`. -/
def State.Reaches (s t : State) : Prop := ∃ k, runFrom k s = .next t

theorem State.Reaches.of_step {s t : State} (h : step s = .next t) : s.Reaches t := ⟨1, runFrom_one s t h⟩

theorem State.Reaches.trans {s t u : State} (hst : s.Reaches t) (htu : t.Reaches u) : s.Reaches u := by
  obtain ⟨j, hj⟩ := hst
  obtain ⟨k, hk⟩ := htu
  exact ⟨j + k, (runFrom_add j k s t hj).trans hk⟩

/-- A state that steps to itself is never left. -/
theorem runFrom_of_step_self {s : State} (h : step s = .next s) (k : Nat) : runFrom k s = .next s := by
  induction k with
  | zero => rfl
  | succ k ih => simp only [runFrom, h, ih]

/-- The events of a trigger that are not out yet go out, one a step. -/
theorem State.Running.reaches_wait {s : State} (hrun : s.Running .trig) :
    s.Reaches { s with
      req := { s.req with trigSent := 0, needtrig := false, state := .wait }
      trace := s.trace ++ (triggerEvents s.req.addr).drop s.req.trigSent.val } := by
  induction hleft : 5 - s.req.trigSent.val generalizing s with
  | zero =>
    have hlast : s.req.trigSent.val = 5 := by have := s.req.trigSent.isLt; omega
    have hstep := State.Reaches.of_step (step_trig hrun)
    rw [State.afterTrigEvent, if_neg (by omega)] at hstep
    rw [List.drop_eq_getElem_cons (trigSent_lt s.req), List.drop_of_length_le (by simp [hlast, triggerEvents, triggerFrame])]
    exact hstep
  | succ n ih =>
    have hmore : s.req.trigSent.val < 5 := by omega
    have hnext : (s.req.trigSent + 1).val = s.req.trigSent.val + 1 := Fin.val_add_one_of_lt (Fin.lt_def.2 hmore)
    have hstep := State.Reaches.of_step (step_trig hrun)
    rw [State.afterTrigEvent, if_pos hmore] at hstep
    obtain ⟨hpin, hstate, hne⟩ := hrun
    have hrest := hstep.trans (ih ⟨hpin, hstate, hne⟩ (by dsimp only; omega))
    rw [List.drop_eq_getElem_cons (trigSent_lt s.req), ← hnext]
    simpa using hrest

/-- Settles O44: with none of the six events out, all of them are still to go out. -/
theorem trigStepSendsTheTriggerFrame : Obligations.TrigStepSendsTheTriggerFrame := by
  refine ⟨by decide, fun s hrun hnone => ?_⟩
  have hall : (triggerEvents s.req.addr).drop s.req.trigSent.val = triggerEvents s.req.addr := by rw [hnone]; rfl
  have hreach := hrun.reaches_wait
  rw [hall, ← hnone] at hreach
  exact hreach

/-! ### `RQ_WAIT` and `RQ_POLL` (R199, R200) -/

theorem step_wait {s : State} (hrun : s.Running .wait) : step s = .next (microWait s) := by
  rw [step_of_running hrun]
  simp [requesterStep, hrun.state_eq]

theorem step_poll {s t : State} (hrun : s.Running .poll) (h : microPoll s = .ok t) : step s = .next t := by
  rw [step_of_running hrun]
  simp [requesterStep, hrun.state_eq, h, outcomeOf]

/-- Settles O45, by whether ENV has a `done` ready. -/
theorem waitStepEmitsTheBackoff : Obligations.WaitStepEmitsTheBackoff := by
  rintro s _ hrun rfl
  rw [step_wait hrun, microWait_eq]
  refine ⟨fun hnone => ?_, fun k hdone => ?_⟩
  · rw [hnone]
    rfl
  · rw [hdone]
    rfl

/-- Settles O46, by the answer that ENV has ready. -/
theorem pollStepTakesTheAnswer : Obligations.PollStepTakesTheAnswer := by
  rintro s _ hrun rfl
  refine ⟨fun hnone => step_poll hrun ?_, fun rest hempty => step_poll hrun ?_,
    fun b bs rest D hanswer hfeed => step_poll hrun ?_⟩
  · exact (microPoll_eq_ok s _).2 (.inl ⟨hnone, rfl⟩)
  · exact (microPoll_eq_ok s _).2 (.inr (.inl ⟨rest, hempty, rfl⟩))
  · exact (microPoll_eq_ok s _).2 (.inr (.inr ⟨b, bs, rest, D, hanswer, hfeed, rfl⟩))

/-- With its event out and no `done`, the wait has nothing to do (R208). -/
theorem microWait_of_unanswered {s : State} (hout : s.req.awaiting = true) (hnone : s.envDone = 0) : microWait s = s := by
  simp [microWait, State.emitOnce_pending _ _ hout, hnone]

/-- With its event out and no answer, the poll has nothing to do (R208). -/
theorem microPoll_of_unanswered {s : State} (hout : s.req.awaiting = true) (hnone : s.envPolls = []) :
    microPoll s = .ok s := by
  simp [microPoll, State.emitOnce_pending _ _ hout, hnone]

theorem step_self_of_unanswered {s : State} (hpin : s.resetPin = false) (hout : s.req.awaiting = true)
    (hnone : (s.req.state = .wait ∧ s.envDone = 0) ∨ (s.req.state = .poll ∧ s.envPolls = [])) : step s = .next s := by
  obtain ⟨hstate, hdone⟩ | ⟨hstate, hpolls⟩ := hnone
  · rw [step_wait ⟨hpin, hstate, nofun⟩, microWait_of_unanswered hout hdone]
  · exact step_poll ⟨hpin, hstate, nofun⟩ (microPoll_of_unanswered hout hpolls)

/-- Settles O54: a step without an answer gives the same state again, and the reset input goes before it. -/
theorem unansweredRequestStaysStuck : Obligations.UnansweredRequestStaysStuck := by
  refine fun s hpin hout hnone => ⟨runFrom_of_step_self (step_self_of_unanswered hpin hout hnone), ?_⟩
  obtain ⟨t, hstep, hreset, hready, -⟩ := hardwareResetGivesTheResetTable { s with resetPin := true } rfl
  exact ⟨t, hstep, hreset, hready⟩

/-! ### `RQ_EVAL` (R201) -/

theorem step_eval {s t : State} (hrun : s.Running .eval) (h : microEval s = .ok t) : step s = .next t := by
  rw [step_of_running hrun]
  simp [requesterStep, hrun.state_eq, h, outcomeOf]

/-- A payload stored at the bottom of a buffer can be loaded back, and the bytes above it stay. -/
theorem loadRange_of_storeList {size : Nat} {m m' : Memory} {bs : List Byte} (h : storeList size m 0 bs = .ok m') :
    loadRange size m' 0 bs.length = .ok bs ∧ ∀ i, bs.length ≤ i → m'.read i = m.read i := by
  obtain ⟨hfits, hread, -⟩ := storeList_ok _ _ _ _ _ h
  refine ⟨(loadRange_eq_ok _ _ _ _ _).2 ⟨rfl, fun k hk => ⟨?_, ?_⟩⟩, fun i hi => ?_⟩
  · obtain rfl | hfits := hfits
    · simp at hk
    · omega
  · rw [hread, if_pos (by omega), Nat.zero_add, Nat.sub_zero]
  · rw [hread, if_neg (by omega)]

/-- Settles O47, in the order of R201's tests. -/
theorem evalStepDecides : Obligations.EvalStepDecides := by
  refine fun s hrun => ⟨fun p hok hfits hload => ?_, fun herr => step_eval hrun ?_, fun hnot hnone => step_eval hrun ?_⟩
  · have hlen := length_of_loadRange hload
    obtain ⟨m, hstore⟩ := storeList_exists (s.cap - 4) p s.req.rxbuf 0 (by omega)
    obtain ⟨hcopied, habove⟩ := loadRange_of_storeList hstore
    rw [hlen] at hcopied habove
    have hmicro : microEval s = .ok _ := (if_pos hok).trans ((takePayload_eq_ok s _).2 ⟨p, m, hload, hstore, rfl⟩)
    exact ⟨_, step_eval hrun hmicro, rfl, hcopied, habove⟩
  · simp [microEval, Decoder.doneOk_of_err herr, herr, toByte_succ]
  · simp [microEval, hnot, hnone, toByte_succ]

/-! ### What no micro-step touches (R207, R209) -/

/-- What a request leaves alone beside REQ and its side of the port (R207, R209). -/
structure State.SameBesideReq (s t : State) : Prop where
  maxPayload : t.maxPayload = s.maxPayload
  crcAcc : t.crcAcc = s.crcAcc
  enc : t.enc = s.enc
  dec : t.dec = s.dec
  hostCmds : t.hostCmds = s.hostCmds

theorem State.SameBesideReq.trans {s t u : State} (hst : s.SameBesideReq t) (htu : t.SameBesideReq u) : s.SameBesideReq u where
  maxPayload := htu.maxPayload.trans hst.maxPayload
  crcAcc := htu.crcAcc.trans hst.crcAcc
  enc := htu.enc.trans hst.enc
  dec := htu.dec.trans hst.dec
  hostCmds := htu.hostCmds.trans hst.hostCmds

/-- A micro-step moves nothing but REQ, its response, its events and ENV's answers to them. -/
theorem requesterStep_same {s t : State} (h : requesterStep s = .next t) : s.SameBesideReq t := by
  unfold requesterStep at h
  split at h
  case h_1 => obtain rfl := Host.Outcome.next.inj h; exact ⟨rfl, rfl, rfl, rfl, rfl⟩
  case h_2 =>
    obtain rfl := Host.Outcome.next.inj h
    unfold microCheck
    split <;> exact ⟨rfl, rfl, rfl, rfl, rfl⟩
  case h_3 => obtain rfl := Host.Outcome.next.inj h; rw [microTrig_eq]; exact ⟨rfl, rfl, rfl, rfl, rfl⟩
  case h_4 =>
    obtain rfl := Host.Outcome.next.inj h
    rw [microWait_eq]
    split <;> exact ⟨rfl, rfl, rfl, rfl, rfl⟩
  case h_5 =>
    obtain ⟨-, rfl⟩ | ⟨_, -, rfl⟩ | ⟨_, _, _, _, -, -, rfl⟩ := (microPoll_eq_ok s t).1 ((outcomeOf_eq_next _ _).1 h)
    all_goals exact ⟨rfl, rfl, rfl, rfl, rfl⟩
  case h_6 =>
    have hmicro := (outcomeOf_eq_next _ _).1 h
    unfold microEval at hmicro
    split_ifs at hmicro
    · obtain ⟨_, _, -, -, rfl⟩ := (takePayload_eq_ok s t).1 hmicro
      exact ⟨rfl, rfl, rfl, rfl, rfl⟩
    · obtain rfl := Except.ok.inj hmicro; exact ⟨rfl, rfl, rfl, rfl, rfl⟩
    · obtain rfl := Except.ok.inj hmicro; exact ⟨rfl, rfl, rfl, rfl, rfl⟩

/-- Settles O11: the step is a micro-step, which stays inside REQ and writes no configuration register there. -/
theorem portIsStalledWhileARequestRuns : Obligations.PortIsStalledWhileARequestRuns := by
  intro s t hpin hrun hstep
  have hcap := step_cap hstep
  rw [step_of_running ⟨hpin, rfl, hrun⟩] at hstep
  obtain ⟨haddr, hresplen, hmaxatt, hdelay⟩ := (requesterStep_effect hrun hstep).req.config_eq
  obtain ⟨-, hcrc, henc, hdec, hcmds⟩ := requesterStep_same hstep
  exact ⟨hcmds, hcrc, henc, hdec, hcap, haddr, hresplen, hdelay, hmaxatt⟩

end Sys2Proof.Machine
end

section
/-! PROOFS. R203's function: one equation per way an answer can go (R200, R201), the bounds on its polls and waits (R210 (d), R288), and its outcomes (R210 (a) to (c)). -/

namespace Sys2Proof.Machine

section

variable {cap : Nat} {addr resplen : Byte} {d : Delay} {left attempt : Nat} {needtrig lasterr : Bool} {D D1 : Decoder}
  {b : Byte} {bs payload : List Byte} {rest : List (List Byte)} {es : List Event}

/-! ### One iteration on an answer with bytes in it -/

theorem requestLoop_of_doneOk (hfeed : D.feed cap (b :: bs) = .ok D1) (hok : D1.doneOk = true)
    (hload : loadRange cap D1.buf 0 D1.paylen.toNat = .ok payload) :
    requestLoop cap addr resplen d (left + 1) attempt needtrig lasterr D ((b :: bs) :: rest) es =
      .ok (some { status := .packetRead, events := es ++ iterationEvents addr resplen d attempt needtrig, payload := payload
                  attempt := attempt, needtrig := false, lasterr := lasterr, rdec := D1 }) := by
  simp [requestLoop, hfeed, hok, hload]

theorem requestLoop_of_err (hfeed : D.feed cap (b :: bs) = .ok D1) (herr : D1.err ≠ .noError) :
    requestLoop cap addr resplen d (left + 1) attempt needtrig lasterr D ((b :: bs) :: rest) es =
      requestLoop cap addr resplen d left (attempt + 1) true true D1.clear rest
        (es ++ iterationEvents addr resplen d attempt needtrig) := by
  simp [requestLoop, hfeed, Decoder.doneOk_of_err herr, herr]

theorem requestLoop_of_unfinished (hfeed : D.feed cap (b :: bs) = .ok D1) (hnot : D1.doneOk = false)
    (hnone : D1.err = .noError) :
    requestLoop cap addr resplen d (left + 1) attempt needtrig lasterr D ((b :: bs) :: rest) es =
      requestLoop cap addr resplen d left (attempt + 1) false false D1 rest
        (es ++ iterationEvents addr resplen d attempt needtrig) := by
  simp [requestLoop, hfeed, hnot, hnone]

end

/-! ### Polls and waits (R210 (d), R288) -/

theorem pollCount_append (xs ys : List Event) : pollCount (xs ++ ys) = pollCount xs + pollCount ys :=
  List.countP_append

theorem waitSum_append (xs ys : List Event) : waitSum (xs ++ ys) = waitSum xs + waitSum ys := by
  simp [waitSum]

/-- With a trigger or without, an iteration polls once. -/
theorem pollCount_iterationEvents (addr resplen : Byte) (d : Delay) (attempt : Nat) (needtrig : Bool) :
    pollCount (iterationEvents addr resplen d attempt needtrig) = 1 := by
  cases needtrig <;> rfl

/-- With a trigger or without, an iteration waits once. -/
theorem waitSum_iterationEvents (addr resplen : Byte) (d : Delay) (attempt : Nat) (needtrig : Bool) :
    waitSum (iterationEvents addr resplen d attempt needtrig) = d.toNat * (attempt + 1) := by
  cases needtrig <;> simp [waitSum, iterationEvents, triggerEvents, triggerFrame]

/-- What a trace of `attempt` whole iterations holds: a poll each, and R288's sum of waits. -/
def TraceOfAttempts (d : Delay) (attempt : Nat) (es : List Event) : Prop :=
  pollCount es = attempt ∧ 2 * waitSum es = d.toNat * attempt * (attempt + 1)

theorem TraceOfAttempts.nil (d : Delay) : TraceOfAttempts d 0 [] := ⟨rfl, by simp [waitSum]⟩

theorem TraceOfAttempts.iteration {d : Delay} {attempt : Nat} {es : List Event} (h : TraceOfAttempts d attempt es)
    (addr resplen : Byte) (needtrig : Bool) :
    TraceOfAttempts d (attempt + 1) (es ++ iterationEvents addr resplen d attempt needtrig) := by
  obtain ⟨hpolls, hwaits⟩ := h
  refine ⟨by rw [pollCount_append, pollCount_iterationEvents, hpolls], ?_⟩
  rw [waitSum_append, waitSum_iterationEvents, Nat.mul_add, hwaits]
  ring

/-- What R210 (d) and R288 say of a request of `m` attempts that has finished. -/
def RequestResult.Bounded (r : RequestResult) (d : Delay) (m : Nat) : Prop :=
  r.status ≠ .noStatus ∧ pollCount r.events ≤ m ∧
  (r.status = .packetError ∨ r.status = .attemptsExhausted → TraceOfAttempts d m r.events)

/-- A request that ends before its attempts do has polled at most once more. -/
theorem RequestResult.bounded_of_early {r : RequestResult} {d : Delay} {attempt left : Nat}
    (hstatus : r.status = .packetRead ∨ r.status = .peerNotFound) (htrace : TraceOfAttempts d (attempt + 1) r.events) :
    r.Bounded d (attempt + (left + 1)) := by
  obtain ⟨hpolls, -⟩ := htrace
  refine ⟨?_, by omega, ?_⟩ <;> obtain h | h := hstatus <;> simp [h]

theorem requestLoop_bounded {cap : Nat} {addr resplen : Byte} {d : Delay} {left attempt : Nat} {needtrig lasterr : Bool}
    {D : Decoder} {answers : List (List Byte)} {es : List Event} {r : RequestResult} (hes : TraceOfAttempts d attempt es)
    (h : requestLoop cap addr resplen d left attempt needtrig lasterr D answers es = .ok (some r)) :
    r.Bounded d (attempt + left) := by
  induction left generalizing attempt needtrig lasterr D answers es with
  | zero =>
    obtain rfl := Option.some.inj (Except.ok.inj h)
    exact ⟨by dsimp only; split <;> simp, hes.1.le, fun _ => hes⟩
  | succ left ih =>
    have hes1 := hes.iteration addr resplen needtrig
    match answers with
    | [] => cases h
    | [] :: rest =>
      obtain rfl := Option.some.inj (Except.ok.inj h)
      exact RequestResult.bounded_of_early (.inr rfl) hes1
    | (b :: bs) :: rest =>
      have hcount : attempt + 1 + left = attempt + (left + 1) := by omega
      simp only [requestLoop] at h
      split at h
      case h_1 => cases h
      case h_2 D1 _ =>
        split_ifs at h
        · split at h
          case h_1 => cases h
          case h_2 =>
            obtain rfl := Option.some.inj (Except.ok.inj h)
            exact RequestResult.bounded_of_early (.inl rfl) hes1
        · exact hcount ▸ ih hes1 h
        · exact hcount ▸ ih hes1 h

/-- Settles O53: each iteration of the loop adds a poll and the next wait to a trace that starts empty. -/
theorem requestPollsAndWaitsAreBounded : Obligations.RequestPollsAndWaitsAreBounded := by
  intro cap addr resplen d m D answers r h
  have hbounded := requestLoop_bounded (TraceOfAttempts.nil d) h
  rwa [Nat.zero_add] at hbounded

/-! ### Outcomes (R210 (a) to (c)) -/

/-- A corrupted answer: it holds bytes, and leaves any reset record in error. -/
def Corrupted (cap : Nat) (a : List Byte) : Prop :=
  a ≠ [] ∧ ∀ D0 : Decoder, ∃ D1, D0.clear.feed cap a = .ok D1 ∧ D1.err ≠ .noError

/-- Corrupted answers use up an attempt each; after every one of them the loop stands as it did before, but for `lasterr`. -/
theorem requestLoop_of_corrupted {cap : Nat} (addr resplen : Byte) (d : Delay) {bads : List (List Byte)}
    (hbads : ∀ a ∈ bads, Corrupted cap a) (left attempt : Nat) (lasterr : Bool) (D : Decoder) (rest : List (List Byte))
    (es : List Event) :
    ∃ (D' : Decoder) (es' : List Event),
      requestLoop cap addr resplen d (bads.length + left) attempt true lasterr D.clear (bads ++ rest) es =
        requestLoop cap addr resplen d left (attempt + bads.length) true (lasterr || !bads.isEmpty) D'.clear rest es' := by
  induction bads generalizing attempt lasterr D es with
  | nil => exact ⟨D, es, by simp⟩
  | cons a bads ih =>
    obtain ⟨⟨hbytes, hcorrupted⟩, hrest⟩ := List.forall_mem_cons.1 hbads
    obtain ⟨b, bs, rfl⟩ := List.exists_cons_of_ne_nil hbytes
    obtain ⟨D1, hfeed, herr⟩ := hcorrupted D
    obtain ⟨D', es', hloop⟩ := ih hrest (attempt + 1) true D1 (es ++ iterationEvents addr resplen d attempt true)
    refine ⟨D', es', ?_⟩
    rw [List.length_cons, Nat.add_right_comm, List.cons_append, requestLoop_of_err hfeed herr, hloop]
    simp [Nat.add_assoc, Nat.add_comm 1]

/-- Settles O52: after the corrupted answers the next one decides; with none left to ask for, `lasterr` does. -/
theorem requestOutcomesByAnswers : Obligations.RequestOutcomesByAnswers := by
  intro cap addr resplen d m D bads rest good p hbads
  refine ⟨fun hm hbytes hgood => ?_, fun hpos hm => ?_, fun hpos => ?_⟩
  · obtain ⟨left, rfl⟩ := Nat.exists_eq_add_of_lt hm
    obtain ⟨D', es', hloop⟩ := requestLoop_of_corrupted addr resplen d hbads (left + 1) 0 false D
      (good :: rest) []
    obtain ⟨D1, hfeed, hok, hload⟩ := hgood D'
    obtain ⟨b, bs, rfl⟩ := List.exists_cons_of_ne_nil hbytes
    exact ⟨_, hloop.trans (requestLoop_of_doneOk hfeed hok hload), rfl, rfl, Nat.zero_add _⟩
  · subst hm
    obtain ⟨D', es', hloop⟩ := requestLoop_of_corrupted addr resplen d hbads 0 0 false D rest []
    have hsome : bads.isEmpty = false := by simpa using List.ne_nil_of_length_pos hpos
    rw [hsome] at hloop
    obtain ⟨-, -, hexhausted⟩ := requestPollsAndWaitsAreBounded cap addr resplen d bads.length D (bads ++ rest) _ hloop
    exact ⟨_, hloop, rfl, Nat.zero_add _, rfl, (hexhausted (.inl rfl)).1⟩
  · obtain ⟨left, rfl⟩ := Nat.exists_eq_add_of_le' hpos
    exact ⟨_, rfl, rfl, rfl, rfl, rfl⟩

end Sys2Proof.Machine
end

section
/-! PROOFS. The requester FSM does what R203's function says, iteration by iteration (R203 against R196 to R202; R210 (f)). -/

namespace Sys2Proof.Machine

/-- The state shows the result `r` of a finished request: its status and response, its trace, its payload, and what it leaves in
the working registers and in `rdec`. -/
structure State.Shows (t : State) (r : RequestResult) : Prop where
  idle : t.req.state = .idle
  status : t.req.status = r.status
  resp : t.resp = some (respWord false (decide (r.status = .packetRead)) r.status.code)
  trace : t.trace = r.events
  rxlen : t.req.rxlen.toNat = r.payload.length
  rxcur : t.req.rxcur = 0#8
  payload : loadRange (t.cap - 4) t.req.rxbuf 0 r.payload.length = .ok r.payload
  attempt : t.req.attempt.toNat = r.attempt
  needtrig : t.req.needtrig = r.needtrig
  lasterr : t.req.lasterr = r.lasterr
  rdec : t.req.rdec = r.rdec

/-- What R203's loop gives from where a running request stands, with `left` iterations to go. -/
def State.loopResult (s : State) (left : Nat) : Except Fault (Option RequestResult) :=
  requestLoop s.cap s.req.addr s.req.resplen s.req.delay left s.req.attempt.toNat s.req.needtrig s.req.lasterr s.req.rdec
    s.envPolls s.trace

theorem State.loopResult_of_envPolls {s : State} {answers : List (List Byte)} (hpolls : s.envPolls = answers) (left : Nat) :
    s.loopResult left = requestLoop s.cap s.req.addr s.req.resplen s.req.delay left s.req.attempt.toNat s.req.needtrig
      s.req.lasterr s.req.rdec answers s.trace := by
  rw [State.loopResult, hpolls]

/-- The run of a request from `s` comes to an end that shows what the `left` iterations of R203's loop give. -/
def State.RunsAsLoop (s : State) (left : Nat) : Prop :=
  ∃ t r, s.Reaches t ∧ s.loopResult left = .ok (some r) ∧ t.Shows r ∧ s.SameBesideReq t

/-- A request before an iteration, with `left` of them to go and an answer ready for each. -/
structure State.BeforeLoop (s : State) (left : Nat) : Prop where
  running : s.Running .check
  inv : s.req.Inv s.cap
  attempts : s.req.attempt.toNat + left = s.req.maxatt.toNat
  dones : left ≤ s.envDone
  polls : left ≤ s.envPolls.length

theorem State.BeforeLoop.nothingReceived {s : State} {left : Nat} (h : s.BeforeLoop left) : s.req.NothingReceived := by
  obtain ⟨-, hnothing, -⟩ := (Requester.inv_iff_of_check h.running.state_eq).1 h.inv
  exact hnothing

theorem State.BeforeLoop.attempt_lt {s : State} {left : Nat} (h : s.BeforeLoop (left + 1)) :
    s.req.attempt.toNat < s.req.maxatt.toNat := by
  have := h.attempts
  omega

/-- The unit's invariant holds along a run. -/
theorem State.Reaches.req_inv {s t : State} (hst : s.Reaches t) (hinv : s.req.Inv s.cap) : t.req.Inv t.cap := by
  obtain ⟨k, hk⟩ := hst
  induction k generalizing s with
  | zero =>
    obtain rfl : s = t := by simpa using hk
    exact hinv
  | succ k ih =>
    simp only [runFrom] at hk
    split at hk
    case h_1 u hstep => exact ih (requesterInvariantIsKept s u hinv hstep) hk
    case h_2 => cases hk
    case h_3 => cases hk

/-! ### From RQ_CHECK to RQ_EVAL (R197 to R200) -/

/-- The events of the iteration that begins at `s`. -/
def State.iterationEvents (s : State) : List Event :=
  Machine.iterationEvents s.req.addr s.req.resplen s.req.delay s.req.attempt.toNat s.req.needtrig

/-- RQ_WAIT, with the trigger out if one was needed. -/
def State.waiting (s : State) : State :=
  { s with
    req := { s.req with needtrig := false, state := .wait }
    trace := s.trace ++ if s.req.needtrig = true then triggerEvents s.req.addr else [] }

/-- RQ_POLL, with the events of the iteration out, `n` answers to waits left, and `rest` of the answers to polls. -/
def State.polled (s : State) (n : Nat) (rest : List (List Byte)) : State :=
  { s with
    envDone := n, envPolls := rest, trace := s.trace ++ s.iterationEvents
    req := { s.req with needtrig := false, state := .poll, awaiting := true } }

/-- RQ_EVAL, with the answer in record `D`. -/
def State.evaluating (s : State) (n : Nat) (rest : List (List Byte)) (D : Decoder) : State :=
  { s.polled n rest with req := { (s.polled n rest).req with rdec := D, state := .eval, awaiting := false } }

/-- RQ_CHECK again, one attempt later. -/
def State.rechecking (s : State) (n : Nat) (rest : List (List Byte)) (D : Decoder) (needtrig lasterr : Bool) : State :=
  { s.polled n rest with
    req := { (s.polled n rest).req with
      rdec := D, needtrig := needtrig, lasterr := lasterr, attempt := s.req.attempt + 1#8, state := .check, awaiting := false } }

section

variable {s : State} {left n : Nat} {b : Byte} {bs : List Byte} {rest : List (List Byte)} {D : Decoder}

theorem State.BeforeLoop.reaches_waiting (h : s.BeforeLoop (left + 1)) : s.Reaches s.waiting := by
  obtain ⟨hpin, hstate, -⟩ := h.running
  obtain ⟨-, -, -, -, -, hsent⟩ := (Requester.inv_iff_of_check hstate).1 h.inv
  obtain ⟨htoTrig, htoWait⟩ := (checkStepChoosesOrFinishes s h.running).1 h.attempt_lt
  cases hneed : s.req.needtrig with
  | true =>
    have hsend := trigStepSendsTheTriggerFrame.2 { s with req := { s.req with state := .trig } } ⟨hpin, rfl, nofun⟩ hsent
    rw [State.waiting, if_pos hneed]
    exact (State.Reaches.of_step (htoTrig hneed)).trans hsend
  | false =>
    have hkept : ({ s.req with needtrig := false, state := .wait } : Requester) = { s.req with state := .wait } := by
      rw [← hneed]
    rw [State.waiting, hkept, if_neg (by simp [hneed]), List.append_nil]
    exact .of_step (htoWait hneed)

/-- An iteration that ENV answers leaves RQ_POLL with what R200 makes of the answer. -/
theorem State.BeforeLoop.reaches_of_takeAnswer {t : State} {rx : List Byte} (h : s.BeforeLoop (left + 1))
    (hdone : s.envDone = n + 1) (hpolls : s.envPolls = rx :: rest) (ht : takeAnswer (s.polled n rest) rx = .ok t) :
    s.Reaches t := by
  obtain ⟨hpin, hstate, -⟩ := h.running
  obtain ⟨-, -, -, -, hout, -⟩ := (Requester.inv_iff_of_check hstate).1 h.inv
  have hwait := (waitStepEmitsTheBackoff s.waiting _ ⟨hpin, rfl, nofun⟩ rfl).2 n hdone
  refine (h.reaches_waiting.trans (.of_step hwait)).trans (.of_step (step_poll ⟨hpin, rfl, nofun⟩ ?_))
  rw [← ht, microPoll, State.emitOnce_fresh _ _ rfl]
  simp [State.waiting, State.polled, State.iterationEvents, Machine.iterationEvents, hout, hpolls]

theorem State.BeforeLoop.reaches_evaluating (h : s.BeforeLoop (left + 1)) (hdone : s.envDone = n + 1)
    (hpolls : s.envPolls = (b :: bs) :: rest) (hfeed : s.req.rdec.feed s.cap (b :: bs) = .ok D) :
    s.Reaches (s.evaluating n rest D) := by
  have hanswer : (s.polled n rest).req.rdec.feed (s.polled n rest).cap (b :: bs) = .ok D := hfeed
  refine h.reaches_of_takeAnswer hdone hpolls ?_
  simp only [takeAnswer, hanswer]
  rfl

/-! ### The ends of a request (R200 to R202) -/

/-- No payload is exposed before a frame is verified (R49). -/
theorem State.shows_of_nothingReceived {st : ReqStatus} (hnothing : s.req.NothingReceived) :
    (s.finish st).Shows {
      status := st, events := s.trace, payload := [], attempt := s.req.attempt.toNat, needtrig := s.req.needtrig
      lasterr := s.req.lasterr, rdec := s.req.rdec } := by
  obtain ⟨-, hlen, hcur⟩ := hnothing
  constructor
  case rxlen => exact congrArg BitVec.toNat hlen
  case rxcur => exact hcur
  all_goals rfl

/-- With the attempts used up, `finish_exhausted()` ends the request as the loop does. -/
theorem State.BeforeLoop.runsAsLoop_of_exhausted (h : s.BeforeLoop 0) : s.RunsAsLoop 0 := by
  have hmicro : microCheck s = s.finishExhausted := if_neg (by have := h.attempts; omega)
  exact ⟨s.finishExhausted, _, .of_step (by rw [step_check h.running, hmicro]), rfl,
    State.shows_of_nothingReceived h.nothingReceived, rfl, rfl, rfl, rfl, rfl⟩

/-- An empty answer ends the request as the loop does. -/
theorem State.BeforeLoop.runsAsLoop_of_empty (h : s.BeforeLoop (left + 1)) (hdone : s.envDone = n + 1)
    (hpolls : s.envPolls = [] :: rest) : s.RunsAsLoop (left + 1) :=
  ⟨(s.polled n rest).finish .peerNotFound, _, h.reaches_of_takeAnswer hdone hpolls rfl,
    (State.loopResult_of_envPolls hpolls _).trans rfl, State.shows_of_nothingReceived h.nothingReceived, rfl, rfl, rfl, rfl, rfl⟩

/-- A verified answer ends the request as the loop does, with its payload in the receive buffer. -/
theorem State.BeforeLoop.runsAsLoop_of_doneOk (h : s.BeforeLoop (left + 1)) (hdone : s.envDone = n + 1)
    (hpolls : s.envPolls = (b :: bs) :: rest) (hfeed : s.req.rdec.feed s.cap (b :: bs) = .ok D) (hok : D.doneOk = true) :
    s.RunsAsLoop (left + 1) := by
  have hreach := h.reaches_evaluating hdone hpolls hfeed
  obtain ⟨hinv, -⟩ := (Requester.inv_iff _ _).1 (hreach.req_inv h.inv)
  obtain ⟨hfits, payload, hload⟩ := hinv.payload_exists hok
  obtain ⟨hpin, -, -⟩ := h.running
  obtain ⟨t, hstep, ht, hcopied, -⟩ :=
    (evalStepDecides (s.evaluating n rest D) ⟨hpin, rfl, nofun⟩).1 payload hok hfits hload
  have hlen := length_of_loadRange hload
  generalize t.req.rxbuf = m at ht hcopied
  subst ht
  refine ⟨_, _, hreach.trans (.of_step hstep),
    (State.loopResult_of_envPolls hpolls _).trans (requestLoop_of_doneOk hfeed hok hload), ?_, rfl, rfl, rfl, rfl, rfl⟩
  constructor
  case payload => rw [hlen]; exact hcopied
  case rxlen => exact hlen.symm
  all_goals rfl

/-! ### The loop -/

theorem State.BeforeLoop.toNat_nextAttempt (h : s.BeforeLoop (left + 1)) :
    (s.req.attempt + 1#8).toNat = s.req.attempt.toNat + 1 := by
  rw [← toByte_succ]
  exact Requester.toNat_nextAttempt h.attempt_lt

theorem State.BeforeLoop.rechecking {rx : List Byte} {needtrig lasterr : Bool} (h : s.BeforeLoop (left + 1))
    (hdone : s.envDone = n + 1) (hpolls : s.envPolls = rx :: rest)
    (hreach : s.Reaches (s.rechecking n rest D needtrig lasterr)) :
    (s.rechecking n rest D needtrig lasterr).BeforeLoop left := by
  have hnext := h.toNat_nextAttempt
  obtain ⟨⟨hpin, -, -⟩, hinv, hattempts, hdones, hanswers⟩ := h
  refine ⟨⟨hpin, rfl, nofun⟩, hreach.req_inv hinv, ?_, ?_, ?_⟩
  · dsimp only [State.rechecking, State.polled]
    omega
  · dsimp only [State.rechecking, State.polled]
    omega
  · rw [hpolls] at hanswers
    exact Nat.le_of_succ_le_succ hanswers

/-- An iteration after which the request goes on runs as the loop does if the rest of the request does. -/
theorem State.BeforeLoop.runsAsLoop_of_rechecking {rx : List Byte} {needtrig lasterr : Bool}
    (ih : ∀ {t : State}, t.BeforeLoop left → t.RunsAsLoop left) (h : s.BeforeLoop (left + 1))
    (hdone : s.envDone = n + 1) (hpolls : s.envPolls = rx :: rest)
    (hreach : s.Reaches (s.rechecking n rest D needtrig lasterr))
    (hloop : s.loopResult (left + 1) = requestLoop s.cap s.req.addr s.req.resplen s.req.delay left (s.req.attempt.toNat + 1)
      needtrig lasterr D rest (s.trace ++ s.iterationEvents)) :
    s.RunsAsLoop (left + 1) := by
  obtain ⟨t, r, hrun, hresult, hshows, hsame⟩ := ih (h.rechecking hdone hpolls hreach)
  have hbeside : s.SameBesideReq (s.rechecking n rest D needtrig lasterr) := ⟨rfl, rfl, rfl, rfl, rfl⟩
  rw [← h.toNat_nextAttempt] at hloop
  exact ⟨t, r, hreach.trans hrun, hloop.trans hresult, hshows, hbeside.trans hsame⟩

end

/-- The simulation: with an answer ready for every iteration, the FSM ends as R203's loop does. -/
theorem State.BeforeLoop.runsAsLoop {s : State} {left : Nat} (h : s.BeforeLoop left) : s.RunsAsLoop left := by
  induction left generalizing s with
  | zero => exact h.runsAsLoop_of_exhausted
  | succ left ih =>
    obtain ⟨n, hdone⟩ := Nat.exists_eq_add_of_le' (Nat.le_of_add_left_le h.dones)
    match hpolls : s.envPolls with
    | [] => simpa [hpolls] using h.polls
    | [] :: rest => exact h.runsAsLoop_of_empty hdone hpolls
    | (b :: bs) :: rest =>
      obtain ⟨hlow, hhigh⟩ := s.cap_bounds
      obtain ⟨hrdec, -⟩ := (Requester.inv_iff _ _).1 h.inv
      obtain ⟨D, hfeed⟩ := hrdec.feed_exists hlow hhigh (b :: bs)
      have hreach := h.reaches_evaluating hdone hpolls hfeed
      obtain ⟨hpin, -, -⟩ := h.running
      obtain ⟨-, hretrigger, hrepoll⟩ := evalStepDecides (s.evaluating n rest D) ⟨hpin, rfl, nofun⟩
      cases hok : D.doneOk with
      | true => exact h.runsAsLoop_of_doneOk hdone hpolls hfeed hok
      | false =>
        by_cases herr : D.err = .noError
        · exact h.runsAsLoop_of_rechecking ih hdone hpolls (hreach.trans (.of_step (hrepoll hok herr)))
            ((State.loopResult_of_envPolls hpolls _).trans (requestLoop_of_unfinished hfeed hok herr))
        · exact h.runsAsLoop_of_rechecking ih hdone hpolls (hreach.trans (.of_step (hretrigger herr)))
            ((State.loopResult_of_envPolls hpolls _).trans (requestLoop_of_err hfeed herr))

/-- The state that `REQ_START` leaves (R196). -/
def State.started (s : State) (rest : List CmdWord) : State :=
  { s with hostCmds := rest, req := s.req.begin, resp := none, trace := [] }

theorem step_reqStart {s : State} {rest : List CmdWord} (hready : s.Ready) (hcmds : s.hostCmds = 0x4500#16 :: rest) :
    step s = .next (s.started rest) :=
  stepRunsTheDecodedCommand s _ rest .reqStart hready hcmds (decode_encode .reqStart)

/-- Settles O51: `REQ_START` leaves the request before its first iteration, and from there the FSM runs as the loop. -/
theorem requestMatchesTheBigStep : Obligations.RequestMatchesTheBigStep := by
  rintro s rest ⟨-, -, -, hreq, -⟩ hready hcmds hdones hpolls
  have hstart := step_reqStart hready hcmds
  obtain ⟨hpin, -⟩ := hready
  have hinv := requesterInvariantIsKept s _ hreq hstart
  have hbefore : (s.started rest).BeforeLoop s.req.maxatt.toNat :=
    ⟨⟨hpin, rfl, nofun⟩, hinv, Nat.zero_add _, hdones, hpolls⟩
  obtain ⟨t, r, hrun, hresult, hshows, hsame⟩ := hbefore.runsAsLoop
  obtain ⟨k, hk⟩ := (State.Reaches.of_step hstart).trans hrun
  have hcap : t.cap = s.cap := State.cap_eq_of_maxPayload hsame.maxPayload
  exact ⟨k, t, r, hk, hresult, hshows.idle, hshows.status, hshows.resp, hshows.trace, hshows.rxlen, hshows.rxcur,
    hcap ▸ hshows.payload, hshows.attempt, hshows.needtrig, hshows.lasterr, hshows.rdec, hsame.hostCmds, hsame.crcAcc,
    hsame.enc, hsame.dec⟩

end Sys2Proof.Machine
end

section
/-! PROOFS. What stands in the place of exceptions (60_exceptions.md): the answer to an illegal word (R254), and what a command answered `f = 0` leaves (R253). -/

namespace Sys2Proof.Machine

/-! ### An illegal command word -/

theorem decode_of_not_wordLegal {w : CmdWord} (hillegal : wordLegal w = false) : ∃ why, decode w = .illegal why := by
  obtain ⟨-, -, hlegal⟩ := illegalWordsAreThoseOutsideTheMap w
  cases hdecode : decode w with
  | instr i => simp [hlegal.1 ⟨i, hdecode⟩] at hillegal
  | illegal why => exact ⟨why, rfl⟩

theorem commandStep_of_decode_illegal {s s1 : State} {w : CmdWord} {why : IllegalReason} (hfetch : s.fetch = some (w, s1))
    (hdecode : decode w = .illegal why) : commandStep s = .next s1.respondIllegal := by
  simp [commandStep, hfetch, hdecode]

/-- Settles O7: the port takes the step, the fetch consumes HOST's word, and the word's only effect is its response. -/
theorem illegalWordIsAnsweredIllegal : Obligations.IllegalWordIsAnsweredIllegal := by
  intro s w rest hready hcmds hillegal
  obtain ⟨why, hdecode⟩ := decode_of_not_wordLegal hillegal
  calc step s
    _ = commandStep s := step_of_ready hready
    _ = .next (State.respondIllegal { s with hostCmds := rest }) :=
      commandStep_of_decode_illegal (State.fetch_of_cons hcmds) hdecode

/-! ### A command answered `f = 0` -/

/-- A byte that a record does not accept leaves the record as it is, or is the one that records an error (R155, R257). -/
theorem Decoder.write_of_not_accepted {cap : Nat} {D D' : Decoder} {b : Byte} (h : D.write cap b = .ok (false, D')) :
    D' = D ∨ (D.err = .noError ∧ D'.err ≠ .noError) := by
  obtain ⟨-, -, hkept⟩ | ⟨-, -, -, -, haccepted, -⟩ | ⟨-, -, -, -, hkept⟩ | ⟨hnone, -, -, -, -, rfl⟩ |
    ⟨-, -, -, -, haccepted, -⟩ | ⟨-, -, -, -, -, haccepted, -⟩ | ⟨hnone, -, -, -, -, -, rfl⟩ |
    ⟨hnone, -, -, -, -, -, hverify⟩ := Decoder.write_cases h
  case inl => exact .inl hkept
  case inr.inr.inl => exact .inl hkept
  case inr.inr.inr.inl => exact .inr ⟨hnone, nofun⟩
  case inr.inr.inr.inr.inr.inr.inl => exact .inr ⟨hnone, nofun⟩
  case inr.inr.inr.inr.inr.inr.inr =>
    obtain ⟨_, _, -, -, ⟨-, haccepted, -⟩ | ⟨-, -, rfl⟩⟩ := (Decoder.verify_eq_ok _ _ _ _).1 hverify
    · cases haccepted
    · exact .inr ⟨hnone, nofun⟩
  all_goals cases haccepted

/-- Everything that a command answered `f = 0` can make of the state (R253). -/
inductive State.Rejected (s : State) (i : Instr) : State → Prop where
  /-- rejected or "no data" (R122, R123, R125, R158, R206) -/
  | kept : State.Rejected s i (s.respond false 0x00#8)
  /-- `DEC_WRITE` of a byte that the record does not accept (R156) -/
  | byteNotAccepted (b : Byte) (hi : i = .decWrite b) {D : Decoder} (hwrite : s.dec.write s.cap b = .ok (false, D)) :
      State.Rejected s i ({ s with dec := D }.respond false 0x00#8)

theorem State.resp_respond_true_ne (s : State) (d d' : Byte) :
    (s.respond true d).resp ≠ some (respWord false false d') := by
  simp [respWord_eq_iff]

theorem exec_rejected {i : Instr} {s t : State} {d : Byte} (hexec : exec i s = .next t)
    (hresp : t.resp = some (respWord false false d)) : s.Rejected i t := by
  cases i with
  | encWrite | encEnd | encRead | decRead | reqRead =>
    simp only [exec, execEncWrite, execEncEnd, execEncRead, execDecRead, execReqRead] at hexec
    split at hexec
    case isTrue =>
      split at hexec
      case h_1 => cases hexec
      case h_2 =>
        obtain rfl := Host.Outcome.next.inj hexec
        exact absurd hresp (State.resp_respond_true_ne _ _ _)
    case isFalse => obtain rfl := Host.Outcome.next.inj hexec; exact .kept
  | decWrite b =>
    simp only [exec, execDecWrite] at hexec
    split at hexec
    case h_1 => cases hexec
    case h_2 accepted D hwrite =>
      obtain rfl := Host.Outcome.next.inj hexec
      cases accepted with
      | true => exact absurd hresp (State.resp_respond_true_ne _ _ _)
      | false => exact .byteNotAccepted b rfl hwrite
  | reqStart => obtain rfl := Host.Outcome.next.inj hexec; cases hresp
  | _ => obtain rfl := Host.Outcome.next.inj hexec; exact absurd hresp (State.resp_respond_true_ne _ _ _)

/-- Settles O14: the one state change under `f = 0` is the error that a byte not accepted records. -/
theorem rejectedCommandsChangeNothing : Obligations.RejectedCommandsChangeNothing := by
  intro i s t d hexec hresp
  cases exec_rejected hexec hresp with
  | kept => exact .inl rfl
  | byteNotAccepted b hi hwrite =>
    obtain rfl | ⟨hnone, hrecorded⟩ := Decoder.write_of_not_accepted hwrite
    · exact .inl rfl
    · exact .inr ⟨⟨b, hi⟩, hnone, hrecorded⟩

end Sys2Proof.Machine
end
